-- ==== Sys2Proof/Word.lean ====
section
/-! DEFINITION. The widths of the CORE (spec 00_scope.md R16, R17): bytes, 16-bit words and addresses, nibbles, register numbers. -/

namespace Sys2Proof

/-- A byte: a general register, a timer, a memory cell, the immediate `kk` (R16, R40, R50, R91). -/
abbrev Byte := BitVec 8

/-- A 16-bit word: an instruction word, a stack slot, `I` and `pc` (R16, R43, R44, R51, R90). -/
abbrev Word := BitVec 16

/-- Four bits: the fields `n` and (where it is ignored) `y` of an instruction word (R91). -/
abbrev Nibble := BitVec 4

/-- The 12-bit memory address field of an instruction word (R91). -/
abbrev Addr12 := BitVec 12

/-- A general register number, 0x0 to 0xF (R40). -/
abbrev Reg := Fin 16

/-- VF, the flag register: register index 0xF (R22, R41). -/
abbrev VF : Reg := 15

end Sys2Proof
end

