-- ==== Sys2Proof/Syntax.lean ====
section
/-! DEFINITION. The instruction set: one constructor per row of spec/opcode_table.json (30_encoding.md R109). -/

namespace Sys2Proof

/-- The 34 operations (00_scope.md R2), in the order of the table of R109. The arguments are the fields of R91 that the word
carries. Two kinds of field do not change what the instruction does, and are kept so that no bit of a word is lost: `y` of the
shifts (R172, R174: "decoded but unused") and `n` of 5xyn and 9xyn (R108, R111). -/
inductive Instr where
  /-- 00E0 CLS, clear-screen (R120). -/
  | cls
  /-- 00EE RET, return (R141). -/
  | ret
  /-- 1nnn JP addr (R140). -/
  | jpAddr (addr : Addr12)
  /-- 2nnn CALL addr (R142). -/
  | callAddr (addr : Addr12)
  /-- 3xkk SE Vx, kk (R143). -/
  | seVxKk (x : Reg) (kk : Byte)
  /-- 4xkk SNE Vx, kk (R144). -/
  | sneVxKk (x : Reg) (kk : Byte)
  /-- 5xyn SE Vx, Vy (R145); `n` is ignored, and must be 0 under `STRICT_5_9 = true`. -/
  | seVxVy (x y : Reg) (n : Nibble)
  /-- 6xkk LD Vx, kk (R164). -/
  | ldVxKk (x : Reg) (kk : Byte)
  /-- 7xkk ADD Vx, kk (R165). -/
  | addVxKk (x : Reg) (kk : Byte)
  /-- 8xy0 LD Vx, Vy (R166). -/
  | ldVxVy (x y : Reg)
  /-- 8xy1 OR Vx, Vy (R167). -/
  | orVxVy (x y : Reg)
  /-- 8xy2 AND Vx, Vy (R168). -/
  | andVxVy (x y : Reg)
  /-- 8xy3 XOR Vx, Vy (R169). -/
  | xorVxVy (x y : Reg)
  /-- 8xy4 ADD Vx, Vy (R170). -/
  | addVxVy (x y : Reg)
  /-- 8xy5 SUB Vx, Vy (R171). -/
  | subVxVy (x y : Reg)
  /-- 8xy6 SHR Vx (R172); `y` is ignored. -/
  | shrVx (x y : Reg)
  /-- 8xy7 SUBN Vx, Vy (R173). -/
  | subnVxVy (x y : Reg)
  /-- 8xyE SHL Vx (R174); `y` is ignored. -/
  | shlVx (x y : Reg)
  /-- 9xyn SNE Vx, Vy (R146); `n` is ignored, and must be 0 under `STRICT_5_9 = true`. -/
  | sneVxVy (x y : Reg) (n : Nibble)
  /-- Annn LD I, addr (R191). -/
  | ldIAddr (addr : Addr12)
  /-- Bnnn JP V0, addr (R147). -/
  | jpV0Addr (addr : Addr12)
  /-- Cxkk RND Vx, kk (R176). -/
  | rndVxKk (x : Reg) (kk : Byte)
  /-- Dxyn DRW Vx, Vy, n (R123). -/
  | drwVxVyN (x y : Reg) (n : Nibble)
  /-- Ex9E SKP Vx (R211). -/
  | skpVx (x : Reg)
  /-- ExA1 SKNP Vx (R212). -/
  | sknpVx (x : Reg)
  /-- Fx07 LD Vx, DT (R213). -/
  | ldVxDt (x : Reg)
  /-- Fx0A LD Vx, K, wait-for-key (R214). -/
  | ldVxK (x : Reg)
  /-- Fx15 LD DT, Vx (R215). -/
  | ldDtVx (x : Reg)
  /-- Fx18 LD ST, Vx (R216). -/
  | ldStVx (x : Reg)
  /-- Fx1E ADD I, Vx (R192). -/
  | addIVx (x : Reg)
  /-- Fx29 LD F, Vx (R193). -/
  | ldFVx (x : Reg)
  /-- Fx33 LD B, Vx (R194). -/
  | ldBVx (x : Reg)
  /-- Fx55 LD [I], Vx (R195). -/
  | ldMemVx (x : Reg)
  /-- Fx65 LD Vx, [I] (R196). -/
  | ldVxMem (x : Reg)
  deriving DecidableEq, Repr

end Sys2Proof
end

