-- ==== Sys2Proof/WellFormed.lean ====
section
/-! DEFINITION. Which instructions have a word. Every field's range is in its type; the one check left is the low nibble of
5xyn and 9xyn (30_encoding.md R108). -/

namespace Sys2Proof

/-- `n` of 5xyn and 9xyn is any nibble under `STRICT_5_9 = false` and 0 under `STRICT_5_9 = true` (R108, D6). -/
def nibbleAllowed (strict : Bool) (n : Nibble) : Bool := !strict || n == 0

/-- An instruction that some word stands for, under the given setting of `STRICT_5_9`. -/
def Instr.wellFormed (strict : Bool) : Instr → Bool
  | .seVxVy _ _ n => nibbleAllowed strict n
  | .sneVxVy _ _ n => nibbleAllowed strict n
  | .cls | .ret | .jpAddr _ | .callAddr _ | .seVxKk _ _ | .sneVxKk _ _ | .ldVxKk _ _ | .addVxKk _ _ => true
  | .ldVxVy _ _ | .orVxVy _ _ | .andVxVy _ _ | .xorVxVy _ _ | .addVxVy _ _ | .subVxVy _ _ => true
  | .shrVx _ _ | .subnVxVy _ _ | .shlVx _ _ | .ldIAddr _ | .jpV0Addr _ | .rndVxKk _ _ => true
  | .drwVxVyN _ _ _ | .skpVx _ | .sknpVx _ | .ldVxDt _ | .ldVxK _ | .ldDtVx _ | .ldStVx _ => true
  | .addIVx _ | .ldFVx _ | .ldBVx _ | .ldMemVx _ | .ldVxMem _ => true

end Sys2Proof
end

