-- ==== Sys2Proof/Decode.lean ====
section
/-! DEFINITION. instruction_decoder and the selection half of opcode_dispatcher (00_scope.md R8, R9; 30_encoding.md R90-R112),
and after them an encoder from the same table. -/

namespace Sys2Proof

/-- The fields of a word (R91). -/
def famOf (w : Word) : Nibble := w.extractLsb' 12 4
/-- `x = word[11:8]` (R91). -/
def xOf (w : Word) : Reg := (w.extractLsb' 8 4).toFin
/-- `y = word[7:4]` (R91). -/
def yOf (w : Word) : Reg := (w.extractLsb' 4 4).toFin
/-- `n = word[3:0]` (R91). -/
def nOf (w : Word) : Nibble := w.extractLsb' 0 4
/-- `kk = word[7:0]` (R91). -/
def kkOf (w : Word) : Byte := w.extractLsb' 0 8
/-- `addr = word[11:0]` (R91). -/
def addrOf (w : Word) : Addr12 := w.extractLsb' 0 12

/-- Why bytes name no operation. Each is the fatal decode error of R103; the name says which sub-dispatch rejects. -/
inductive DecodeError where
  /-- Fewer than the two bytes of an instruction. -/
  | truncated
  /-- A family 0 word other than 00E0 and 00EE (R104). -/
  | family0
  /-- A family 8 word with n in 8, 9, A, B, C, D, F (R105). -/
  | family8
  /-- A family E word with kk other than 9E and A1 (R106). -/
  | familyE
  /-- A family F word with kk outside the table of R107. -/
  | familyF
  /-- 5xyn or 9xyn with n ≠ 0 under `STRICT_5_9 = true` (R108). -/
  | lowNibble
  deriving DecidableEq, Repr

/-- Family 0 matches the whole word (R104, D5). -/
def decodeFamily0 (w : Word) : Except DecodeError Instr :=
  if w = 0x00E0 then .ok .cls
  else if w = 0x00EE then .ok .ret
  else .error .family0

/-- Family 8 sub-dispatches on n (R105). -/
def decodeFamily8 (x y : Reg) (n : Nibble) : Except DecodeError Instr :=
  if n = 0x0 then .ok (.ldVxVy x y)
  else if n = 0x1 then .ok (.orVxVy x y)
  else if n = 0x2 then .ok (.andVxVy x y)
  else if n = 0x3 then .ok (.xorVxVy x y)
  else if n = 0x4 then .ok (.addVxVy x y)
  else if n = 0x5 then .ok (.subVxVy x y)
  else if n = 0x6 then .ok (.shrVx x y)
  else if n = 0x7 then .ok (.subnVxVy x y)
  else if n = 0xE then .ok (.shlVx x y)
  else .error .family8

/-- Family E sub-dispatches on (y,n) = kk (R106, D28). -/
def decodeFamilyE (x : Reg) (kk : Byte) : Except DecodeError Instr :=
  if kk = 0x9E then .ok (.skpVx x)
  else if kk = 0xA1 then .ok (.sknpVx x)
  else .error .familyE

/-- Family F sub-dispatches on (y,n) = kk (R107). -/
def decodeFamilyF (x : Reg) (kk : Byte) : Except DecodeError Instr :=
  if kk = 0x07 then .ok (.ldVxDt x)
  else if kk = 0x0A then .ok (.ldVxK x)
  else if kk = 0x15 then .ok (.ldDtVx x)
  else if kk = 0x18 then .ok (.ldStVx x)
  else if kk = 0x1E then .ok (.addIVx x)
  else if kk = 0x29 then .ok (.ldFVx x)
  else if kk = 0x33 then .ok (.ldBVx x)
  else if kk = 0x55 then .ok (.ldMemVx x)
  else if kk = 0x65 then .ok (.ldVxMem x)
  else .error .familyF

/-- Families 5 and 9 take every n, or only n = 0 under `STRICT_5_9 = true` (R108, D6). -/
def decodeLowNibble (strict : Bool) (n : Nibble) (i : Instr) : Except DecodeError Instr :=
  if nibbleAllowed strict n then .ok i else .error .lowNibble

/-- The dispatcher's selection (R102-R108): total on any word, and every word it rejects is rejected by name. -/
def decode (strict : Bool) (w : Word) : Except DecodeError Instr :=
  if famOf w = 0x0 then decodeFamily0 w
  else if famOf w = 0x1 then .ok (.jpAddr (addrOf w))
  else if famOf w = 0x2 then .ok (.callAddr (addrOf w))
  else if famOf w = 0x3 then .ok (.seVxKk (xOf w) (kkOf w))
  else if famOf w = 0x4 then .ok (.sneVxKk (xOf w) (kkOf w))
  else if famOf w = 0x5 then decodeLowNibble strict (nOf w) (.seVxVy (xOf w) (yOf w) (nOf w))
  else if famOf w = 0x6 then .ok (.ldVxKk (xOf w) (kkOf w))
  else if famOf w = 0x7 then .ok (.addVxKk (xOf w) (kkOf w))
  else if famOf w = 0x8 then decodeFamily8 (xOf w) (yOf w) (nOf w)
  else if famOf w = 0x9 then decodeLowNibble strict (nOf w) (.sneVxVy (xOf w) (yOf w) (nOf w))
  else if famOf w = 0xA then .ok (.ldIAddr (addrOf w))
  else if famOf w = 0xB then .ok (.jpV0Addr (addrOf w))
  else if famOf w = 0xC then .ok (.rndVxKk (xOf w) (kkOf w))
  else if famOf w = 0xD then .ok (.drwVxVyN (xOf w) (yOf w) (nOf w))
  else if famOf w = 0xE then decodeFamilyE (xOf w) (kkOf w)
  else decodeFamilyF (xOf w) (kkOf w)

/-- The word of two bytes in fetch order, the high byte first (R71, R74: big-endian). -/
def wordOfBytes (hi lo : Byte) : Word := hi ++ lo

/-- The high byte of a word, which stands at the lower address (R71). -/
def hiByte (w : Word) : Byte := w.extractLsb' 8 8

/-- The low byte of a word, which stands at the higher address (R71). -/
def loByte (w : Word) : Byte := w.extractLsb' 0 8

/-- The first instruction of a byte sequence, and the bytes after it: every instruction is two bytes (R90, R112). -/
def decodeBytes (strict : Bool) : List Byte → Except DecodeError (Instr × List Byte)
  | hi :: lo :: rest => (decode strict (wordOfBytes hi lo)).map (fun i => (i, rest))
  | _ => .error .truncated

/-- What the decoder reads from the word `w` of a table row (`nbits` = 16 for every row), laid out as the hardware stores it,
under the default `STRICT_5_9 = false`. -/
def decodeTableWord (nbits w : Nat) : Option Instr :=
  let word : Word := BitVec.ofNat 16 (w % 2 ^ nbits)
  match decodeBytes false [hiByte word, loByte word] with
  | .ok (i, _) => some i
  | .error _ => none

/-- The word with fields fam, x and kk (R91). -/
def wordXKk (fam : Nibble) (x : Reg) (kk : Byte) : Word := fam ++ (BitVec.ofFin x : Nibble) ++ kk

/-- The word with fields fam, x, y and n (R91). -/
def wordXYN (fam : Nibble) (x y : Reg) (n : Nibble) : Word :=
  fam ++ (BitVec.ofFin x : Nibble) ++ (BitVec.ofFin y : Nibble) ++ n

/-- The word with fields fam and addr (R91). -/
def wordAddr (fam : Nibble) (addr : Addr12) : Word := fam ++ addr

/-- The word of an instruction, from the table of R109. -/
def encode : Instr → Word
  | .cls => 0x00E0
  | .ret => 0x00EE
  | .jpAddr addr => wordAddr 0x1 addr
  | .callAddr addr => wordAddr 0x2 addr
  | .seVxKk x kk => wordXKk 0x3 x kk
  | .sneVxKk x kk => wordXKk 0x4 x kk
  | .seVxVy x y n => wordXYN 0x5 x y n
  | .ldVxKk x kk => wordXKk 0x6 x kk
  | .addVxKk x kk => wordXKk 0x7 x kk
  | .ldVxVy x y => wordXYN 0x8 x y 0x0
  | .orVxVy x y => wordXYN 0x8 x y 0x1
  | .andVxVy x y => wordXYN 0x8 x y 0x2
  | .xorVxVy x y => wordXYN 0x8 x y 0x3
  | .addVxVy x y => wordXYN 0x8 x y 0x4
  | .subVxVy x y => wordXYN 0x8 x y 0x5
  | .shrVx x y => wordXYN 0x8 x y 0x6
  | .subnVxVy x y => wordXYN 0x8 x y 0x7
  | .shlVx x y => wordXYN 0x8 x y 0xE
  | .sneVxVy x y n => wordXYN 0x9 x y n
  | .ldIAddr addr => wordAddr 0xA addr
  | .jpV0Addr addr => wordAddr 0xB addr
  | .rndVxKk x kk => wordXKk 0xC x kk
  | .drwVxVyN x y n => wordXYN 0xD x y n
  | .skpVx x => wordXKk 0xE x 0x9E
  | .sknpVx x => wordXKk 0xE x 0xA1
  | .ldVxDt x => wordXKk 0xF x 0x07
  | .ldVxK x => wordXKk 0xF x 0x0A
  | .ldDtVx x => wordXKk 0xF x 0x15
  | .ldStVx x => wordXKk 0xF x 0x18
  | .addIVx x => wordXKk 0xF x 0x1E
  | .ldFVx x => wordXKk 0xF x 0x29
  | .ldBVx x => wordXKk 0xF x 0x33
  | .ldMemVx x => wordXKk 0xF x 0x55
  | .ldVxMem x => wordXKk 0xF x 0x65

end Sys2Proof
end

