-- ==== Sys2Proof/Config.lean ====
section
/-! DEFINITION. What is fixed for one instance of the CORE: the model parameters of 00_scope.md R16 and their two settings
each, the sizes, and the one free value (the random byte of Cxkk). -/

namespace Sys2Proof

/-- What an out-of-range index does: the parameters `MEM_OOB` (20_memory.md R72, D3) and `KEY_OOB` (45_keys_timers.md R217, D9). -/
inductive OobPolicy where
  /-- The index is reduced to the valid range (the default of both parameters). -/
  | wrap
  /-- The access raises a fault that only the model has. -/
  | fault
  deriving DecidableEq, Repr, Inhabited

/-- How pc behaves while Fx0A blocks: the parameter `WAIT_PC_MODEL` (45_keys_timers.md R214, D7). -/
inductive WaitPcModel where
  /-- The blocking instruction itself is fetched again (the default). -/
  | refetch
  /-- Only the gate of 30_encoding.md R100 acts; the handler never writes pc. -/
  | literal
  deriving DecidableEq, Repr, Inhabited

/-- When VF is written as a flag, against the operand reads: the parameter `VF_ORDER` (43_alu.md R163, D8). -/
inductive VfOrder where
  /-- All operands are read, then V[x] is written, then VF (the default). -/
  | flagLast
  /-- The statements run in the source table's order, each reading registers as it runs. -/
  | sequential
  deriving DecidableEq, Repr, Inhabited

/-- The parameters a step reads (00_scope.md R16). The defaults are the spec's. They stand in `State.params`, so that a
statement about every state covers every setting; nothing writes them. -/
structure Params where
  /-- `MEM_OOB` (R72). -/
  memOob : OobPolicy := .wrap
  /-- `STRICT_5_9` (R108): whether 5xyn and 9xyn with n ≠ 0 are illegal. -/
  strict59 : Bool := false
  /-- `WAIT_PC_MODEL` (R214). -/
  waitPc : WaitPcModel := .refetch
  /-- `VF_ORDER` (R163). -/
  vfOrder : VfOrder := .flagLast
  /-- `KEY_OOB` (R217). -/
  keyOob : OobPolicy := .wrap
  deriving DecidableEq, Repr, Inhabited

namespace Config

/-- The size of memory in bytes (R50). -/
abbrev memSize : Nat := 4096

/-- The program base, the only base `load` accepts, and the reset value of pc (R44, R84). -/
abbrev programBase : Word := 0x200

/-- The longest image `load` accepts, 0xE00 bytes (R84). -/
abbrev maxImage : Nat := 3584

/-- The free value of the model: the byte of the n-th draw from the injected random source (43_alu.md R176, D17). It has no
body, so no proof can see a value of it: any byte, under no law. -/
opaque randomByte : Nat → Byte

end Config

end Sys2Proof
end

