-- ==== Sys2Proof/Machine/State.lean ====
section
/-! DEFINITION. The state of the CORE (10_state.md), the reasons a step stops, and the state right after reset. -/

namespace Sys2Proof.Machine

/-- Memory: the listed bytes, by physical address. An unlisted address reads as its reset contents
(`Sys2Proof.Machine.unlistedByte`); `Mem.wf` is the canonical form. -/
abbrev Mem := List Host.Cell

/-- The framebuffer: 32 rows of 64 columns, row and column counted as in R55. The cell the spec numbers `row*64 + col` is
column `col` of row `row` (`State.cell`). -/
abbrev Framebuffer := Vector (Vector Bool 64) 32

/-- The architectural state of the CORE, one field per item of 10_state.md, and two fields of the model's own: `params` and
`draws`. -/
structure State where
  /-- V0-VF (R40, R41). -/
  V : Vector Byte 16
  /-- The index register (R43). -/
  I : Word
  /-- The program counter (R44). -/
  pc : Word
  /-- The stack pointer: 0..16 and no other value (R47, R52), the number of occupied slots. -/
  SP : Fin 17
  /-- The 16 return-address slots (R51). -/
  stack : Vector Word 16
  /-- The delay timer (R53). -/
  DT : Byte
  /-- The sound timer (R54). -/
  ST : Byte
  /-- The 4096 bytes of memory (R50). -/
  mem : Mem
  /-- The framebuffer (R55). -/
  fb : Framebuffer
  /-- The key snapshot (R58). -/
  keys : Vector Bool 16
  /-- The input-wait flag (R59). -/
  wait : Bool
  /-- The record of a fatal outcome (R60). -/
  faulted : Bool
  /-- The parameters of this instance (00_scope.md R16): model's own field, log entry 1. No step changes it. -/
  params : Params
  /-- How many bytes Cxkk has drawn from the random source: model's own field, log entry 2. -/
  draws : Nat
  deriving DecidableEq, Repr, Inhabited

/-- The fatal outcomes of a step (60_exceptions.md R230, R232), each with the info the spec records. All are SAFE: the machine
stops where the spec says it stops. -/
inductive Fault where
  /-- Raised by 00EE when SP = 0; `pc` is the fetch address (R141). Safe: the source's own fatal condition. -/
  | stackUnderflow (pc : Word)
  /-- Raised by 2nnn when SP = 16; `pc` is the fetch address (R142). Safe: the source's own fatal condition. -/
  | stackOverflow (pc : Word)
  /-- Raised by the dispatcher when the word selects no operation (R103). Safe: the source's own fatal condition. -/
  | unknownOpcode (word pc : Word)
  /-- Raised by the fetch, Dxyn, Fx33, Fx55 and Fx65, only under `MEM_OOB = FAULT`, for an address of 4096 or above (R72).
  Safe: the model stops where the hardware might go on. -/
  | addressRange (address pc : Word)
  /-- Raised by Ex9E and ExA1, only under `KEY_OOB = FAULT`, when V[x] is 16 or above (R217). Safe, as `addressRange`. -/
  | keyRange (value : Byte) (pc : Word)
  deriving DecidableEq, Repr

/-- Why a transaction has no transition. All are safe: nothing is claimed of what the hardware would do. -/
inductive Refusal where
  /-- Raised by an arm of `exec` for an instruction that has no meaning in the model. No arm does. Safe. -/
  | notModelled (mnemonic : String)
  /-- Raised by every host transaction while `faulted` is true (R231). Safe. -/
  | coreFaulted
  /-- Raised by `load` with a base other than 0x200 (R84). Safe. -/
  | loadBase (base : Word)
  /-- Raised by `load` with an image of more than 3584 bytes (R84, D22). Safe. -/
  | loadTooLong (length : Nat)
  /-- Raised by `load` after the first `step` (R84, D22). Safe. -/
  | loadTooLate
  deriving DecidableEq, Repr

/-- The state after reset, before `load` (10_state.md R64, 70_reset_and_hazards.md R260). pc and the font region (which
unlisted memory reads as) are the source's; every other value is the spec's decision D10, log entries 3 and 4. -/
def State.reset : State where
  V := Vector.replicate 16 0x00
  I := 0x0000
  pc := Config.programBase
  SP := 0
  stack := Vector.replicate 16 0x0000
  DT := 0x00
  ST := 0x00
  mem := []
  fb := Vector.replicate 32 (Vector.replicate 64 false)
  keys := Vector.replicate 16 false
  wait := false
  faulted := false
  params := {}
  draws := 0

end Sys2Proof.Machine
end

