-- ==== Sys2Proof/Machine/Memory.lean ====
section
/-! DEFINITION. memory_interface (00_scope.md R12; 20_memory.md R70-R79): what an unlisted byte reads as, reading and writing
one byte of the list, its canonical form, and the mapping of a 16-bit address to a physical one. -/

namespace Sys2Proof.Machine

/-- The default `FONT` (10_state.md R57, D11): glyph d at 5*d, its rows from top to bottom. From the spec's general knowledge,
log entry 4. -/
def defaultFont : List Byte :=
  [0xF0, 0x90, 0x90, 0x90, 0xF0] ++ [0x20, 0x60, 0x20, 0x20, 0x70] ++
  [0xF0, 0x10, 0xF0, 0x80, 0xF0] ++ [0xF0, 0x10, 0xF0, 0x10, 0xF0] ++
  [0x90, 0x90, 0xF0, 0x10, 0x10] ++ [0xF0, 0x80, 0xF0, 0x10, 0xF0] ++
  [0xF0, 0x80, 0xF0, 0x90, 0xF0] ++ [0xF0, 0x10, 0x20, 0x40, 0x40] ++
  [0xF0, 0x90, 0xF0, 0x90, 0xF0] ++ [0xF0, 0x90, 0xF0, 0x10, 0xF0] ++
  [0xF0, 0x90, 0xF0, 0x90, 0x90] ++ [0xE0, 0x90, 0xE0, 0x90, 0xE0] ++
  [0xF0, 0x80, 0x80, 0x80, 0xF0] ++ [0xE0, 0x90, 0x90, 0x90, 0xE0] ++
  [0xF0, 0x80, 0xF0, 0x80, 0xF0] ++ [0xF0, 0x80, 0xF0, 0x80, 0x80]

/-- What an unlisted physical address reads as: the reset contents, the font at 0x000-0x04F and 0x00 elsewhere (R50, R64). -/
def unlistedByte (k : Nat) : Byte := defaultFont.getD k 0x00

/-- The byte at physical address `k`. -/
def Mem.read : Mem → Nat → Byte
  | [], k => unlistedByte k
  | (a, b) :: rest, k => if a = k then b else Mem.read rest k

/-- The list without an entry for `k`. -/
def Mem.without (m : Mem) (k : Nat) : Mem := m.filter (fun c => c.1 != k)

/-- An entry put before the first entry of a higher address. -/
def Mem.enter : Mem → Nat → Byte → Mem
  | [], k, v => [(k, v)]
  | (a, b) :: rest, k, v => if k < a then (k, v) :: (a, b) :: rest else (a, b) :: Mem.enter rest k v

/-- The memory with byte `v` at physical address `k`: no entry where `v` is what the unlisted address reads as. -/
def Mem.write (m : Mem) (k : Nat) (v : Byte) : Mem :=
  if v = unlistedByte k then m.without k else (m.without k).enter k v

/-- The canonical form from address `lo` on. -/
def Mem.wfFrom : Nat → Mem → Bool
  | _, [] => true
  | lo, (a, b) :: rest => decide (lo ≤ a) && decide (a < Config.memSize) && (b != unlistedByte a) && Mem.wfFrom (a + 1) rest

/-- The canonical form: addresses strictly rising, all inside the 4096 bytes, no entry equal to what the unlisted address
reads as. -/
def Mem.wf (m : Mem) : Bool := Mem.wfFrom 0 m

/-- The physical address `p(a)` of a 16-bit address (R72): `a mod 4096`. Under `MEM_OOB = FAULT` the accesses that reach it
have `a < 4096` (`outOfRange`), where it is `a` itself. -/
def phys (a : Word) : Nat := a.toNat % Config.memSize

/-- The address raises AddressRange: only under `MEM_OOB = FAULT`, at 4096 and above (R72). -/
def outOfRange (p : Params) (a : Word) : Bool :=
  match p.memOob with
  | .wrap => false
  | .fault => decide (Config.memSize ≤ a.toNat)

/-- Bytes written to successive addresses from `base`, in increasing order (R73, R77): the k-th at `base +16 k`. -/
def Mem.writeBytes (m : Mem) (base : Word) : List Byte → Mem
  | [] => m
  | b :: bs => Mem.writeBytes (m.write (phys base) b) (base + 1) bs

end Sys2Proof.Machine
end

