-- ==== Sys2Proof/Machine/Ops.lean ====
section
/-! DEFINITION. The named operations of register_file, memory_interface and stack_pointer_controller (00_scope.md R11, R12,
R15), the pc advance of a step, raising a fatal outcome, and the fetch. -/

namespace Sys2Proof.Machine

/-- `V[r]` (R18). -/
def State.reg (s : State) (r : Reg) : Byte := s.V[r]

/-- `V[r] <- b` (R18). -/
def State.setReg (s : State) (r : Reg) (b : Byte) : State := { s with V := s.V.set r b }

/-- `pc <- target` (R18). -/
def State.setPc (s : State) (target : Word) : State := { s with pc := target }

/-- `I <- a` (R43). -/
def State.setI (s : State) (a : Word) : State := { s with I := a }

/-- The pc a handler finds (30_encoding.md R100, R101): the fetch address + 2, or the fetch address itself while `wait` is
set. -/
def State.nextPc (s : State) : Word := if s.wait then s.pc else s.pc + 2

/-- The pre-dispatch advance of the pc (R100). -/
def State.advance (s : State) : State := s.setPc s.nextPc

/-- Raising a fatal outcome (00_scope.md R20, 60_exceptions.md R230, R234): it ends the step and goes to the host. The CORE has
no trap entry: nothing is saved, no mode changes and no handler runs. -/
def raise (f : Fault) : Host.Outcome State Fault Refusal := .fault f

/-- The outcome of a handler that raised a fatal outcome or finished. -/
def outcome : Except Fault State → Host.Outcome State Fault Refusal
  | .ok s => .next s
  | .error f => raise f

/-- The byte at address `a` (R70): no side effect. -/
def State.peek (s : State) (a : Word) : Byte := s.mem.read (phys a)

/-- The byte `v` stored at address `a` (R70): no other byte changes. -/
def State.poke (s : State) (a : Word) (v : Byte) : State := { s with mem := s.mem.write (phys a) v }

/-- The n successive addresses from `base` (R73): `base +16 k` for k = 0 .. n-1. -/
def addresses (base : Word) (n : Nat) : List Word := (List.range n).map (fun k => base + BitVec.ofNat 16 k)

/-- The AddressRange fault of an access to the n addresses from `base` by the instruction at `s.pc`, if there is one: that of
the first address out of range in access order (R72, R232; the order of R21, log entry 13). -/
def State.rangeFault (s : State) (base : Word) (n : Nat) : Option Fault :=
  ((addresses base n).find? (outOfRange s.params)).map (fun a => .addressRange a s.pc)

/-- The bytes at the n addresses from `base`. -/
def State.peekBytes (s : State) (base : Word) (n : Nat) : List Byte := (addresses base n).map s.peek

/-- `bytes` stored at the addresses from `base`. -/
def State.pokeBytes (s : State) (base : Word) (bytes : List Byte) : State := { s with mem := s.mem.writeBytes base bytes }

/-- Registers loaded from V0 on, one per byte, in increasing order. -/
def loadRegs (V : Vector Byte 16) (bytes : List Byte) : Vector Byte 16 :=
  Vector.ofFn (fun i : Fin 16 => bytes.getD i V[i])

/-- `Fetch(pc)` (20_memory.md R74): two bytes, big-endian, no alignment. Under `MEM_OOB = FAULT` it raises AddressRange. -/
def fetch (s : State) : Except Fault Word :=
  match s.rangeFault s.pc 2 with
  | some f => .error f
  | none => .ok (wordOfBytes (s.peek s.pc) (s.peek (s.pc + 1)))

/-- Fetching and selecting (R100, R103): the operation of the word at pc, or the fatal outcome. A fetch out of range comes
before an unknown opcode (60_exceptions.md R233). -/
def fetchInstr (s : State) : Except Fault Instr :=
  match fetch s with
  | .error f => .error f
  | .ok w =>
    match decode s.params.strict59 w with
    | .ok i => .ok i
    | .error _ => .error (.unknownOpcode w s.pc)

/-- `Push(v)` (00_scope.md R15, R142): it writes `stack[SP]` and then increments SP, and it overflows at SP = 16. `a` is the
fetch address the fault records. -/
def State.push (s : State) (a v : Word) : Except Fault State :=
  if h : s.SP.val < 16 then
    .ok { s with stack := s.stack.set s.SP.val v, SP := ⟨s.SP.val + 1, by omega⟩ }
  else .error (.stackOverflow a)

/-- `Pop()` (R15, R141): it decrements SP and gives `stack[SP]` as the new pc; the slot keeps its value (D19), and it underflows
at SP = 0. `a` is the fetch address the fault records. -/
def State.popPc (s : State) (a : Word) : Except Fault State :=
  if h : 0 < s.SP.val then
    .ok { s with SP := ⟨s.SP.val - 1, by omega⟩, pc := s.stack[s.SP.val - 1]'(by omega) }
  else .error (.stackUnderflow a)

/-- The bytes of an instruction word stored where the next fetch reads them (R71). -/
def State.storeWord (s : State) (w : Word) : State := (s.poke s.pc (hiByte w)).poke (s.pc + 1) (loByte w)

end Sys2Proof.Machine
end

