-- ==== Sys2Proof/Machine/Operands.lean ====
section
/-! DEFINITION. Operand forms (30_encoding.md R92, R93), the alu_unit's results (43_alu.md R161), the digit split, key indices
and the wait-for-key scan. -/

namespace Sys2Proof.Machine

/-- `zext_16(addr)` (R92). -/
def zextAddr (addr : Addr12) : Word := addr.setWidth 16

/-- `zext_16(v)` of a byte (R19). -/
def zextByte (v : Byte) : Word := v.setWidth 16

/-- The second operand of an alu_unit operation: an immediate or a register (R93, R161). -/
inductive Operand where
  | imm (kk : Byte)
  | reg (y : Reg)
  deriving DecidableEq, Repr

/-- The value an operand has in a state: an immediate as it is, a register as it stands at that moment. -/
def State.operand (s : State) : Operand → Byte
  | .imm kk => kk
  | .reg y => s.reg y

/-- The alu_unit's `op` input (R161). -/
inductive AluOp where
  | ldi | addi | mov | or | and | xor | add | sub | shr | subn | shl | rnd
  deriving DecidableEq, Repr

/-- `r` of the table of R161: the value written to V[x]. `a` is V[x], `b` the second operand (kk for LDI, ADDI and RND) and
`rnd` the drawn byte. -/
def aluResult (op : AluOp) (a b rnd : Byte) : Byte :=
  match op with
  | .ldi => b
  | .addi => a + b
  | .mov => b
  | .or => a ||| b
  | .and => a &&& b
  | .xor => a ^^^ b
  | .add => a + b
  | .sub => a - b
  | .shr => a >>> (1 : Nat)
  | .subn => b - a
  | .shl => a <<< (1 : Nat)
  | .rnd => rnd &&& b

/-- The digits of a byte: hundreds, tens, units (44_index_memory.md R194). -/
def bcdDigits (v : Byte) : List Byte := [v / 100, (v / 10) % 10, v % 10]

/-- `keyidx(v)` (45_keys_timers.md R217): `v mod 16`. Under `KEY_OOB = FAULT` the accesses that reach it have `v < 16`. -/
def keyIndex (v : Byte) : Reg := ⟨v.toNat % 16, Nat.mod_lt _ (by decide)⟩

/-- The KeyRange fault of a key index, if there is one: only under `KEY_OOB = FAULT`, at 16 and above (R217). -/
def State.keyFault (s : State) (v : Byte) : Option Fault :=
  match s.params.keyOob with
  | .wrap => none
  | .fault => if 16 ≤ v.toNat then some (.keyRange v s.pc) else none

/-- `keys[k]` (R18). -/
def State.key (s : State) (k : Reg) : Bool := s.keys[k]

/-- The scan of wait-for-key (R214): indices 0 to 15 in order, the last pressed one wins. -/
def lastPressed (s : State) : Option Reg :=
  (List.finRange 16).foldl (fun k i => if s.key i then some i else k) none

/-- The registers V0 to V[x], in increasing order (R195). -/
def State.regsUpTo (s : State) (x : Reg) : List Byte := s.V.toList.take (x.val + 1)

/-- The origin of Dxyn, V[x] and V[y] (41_display.md R123): read before the VF reset under `FLAG_LAST`, after it under
`SEQUENTIAL`. -/
def State.drawOrigin (s : State) (x y : Reg) : Byte × Byte :=
  match s.params.vfOrder with
  | .flagLast => (s.reg x, s.reg y)
  | .sequential => ((s.setReg VF 0).reg x, (s.setReg VF 0).reg y)

end Sys2Proof.Machine
end

