-- ==== Sys2Proof/Machine/Flags.lean ====
section
/-! DEFINITION. The flag results that VF carries (10_state.md R46; 43_alu.md R161) and the order of their writes (R162, R163). -/

namespace Sys2Proof.Machine

/-- `bool(c)` as the byte VF holds (R19). -/
def flagByte (c : Bool) : Byte := if c then 1 else 0

/-- The carry of the unwrapped 9-bit sum (R161, R170). -/
def carryFlag (a b : Byte) : Bool := decide (a.toNat + b.toNat > 255)

/-- The strict compare of SUB and SUBN (R161, R171, R173): false on equality. -/
def greaterFlag (a b : Byte) : Bool := decide (a.toNat > b.toNat)

/-- The bit SHR shifts out (R172). -/
def lowBit (a : Byte) : Bool := a.getLsbD 0

/-- The bit SHL shifts out (R174). -/
def highBit (a : Byte) : Bool := a.getLsbD 7

/-- `f` of the table of R161: the value written to VF, or none where the operation writes no flag. -/
def aluFlag (op : AluOp) (a b : Byte) : Option Bool :=
  match op with
  | .add => some (carryFlag a b)
  | .sub => some (greaterFlag a b)
  | .shr => some (lowBit a)
  | .subn => some (greaterFlag b a)
  | .shl => some (highBit a)
  | .ldi | .addi | .mov | .or | .and | .xor | .rnd => none

/-- A flag result written to VF. -/
def State.writeFlag (s : State) : Option Bool → State
  | none => s
  | some f => s.setReg VF (flagByte f)

/-- The operations whose row of the source table writes VF before V[x] (R163). -/
def flagFirst : AluOp → Bool
  | .sub | .shr | .subn | .shl => true
  | .ldi | .addi | .mov | .or | .and | .xor | .add | .rnd => false

/-- Operands read first, then V[x] written, then VF (R162). -/
def aluFlagLast (op : AluOp) (x : Reg) (b : Operand) (rnd : Byte) (s : State) : State :=
  (s.setReg x (aluResult op (s.reg x) (s.operand b) rnd)).writeFlag (aluFlag op (s.reg x) (s.operand b))

/-- VF written first, then V[x] from the registers as they then stand (R163, `SEQUENTIAL`). -/
def aluFlagFirst (op : AluOp) (x : Reg) (b : Operand) (rnd : Byte) (s : State) : State :=
  let s1 := s.writeFlag (aluFlag op (s.reg x) (s.operand b))
  s1.setReg x (aluResult op (s1.reg x) (s1.operand b) rnd)

/-- An alu_unit operation on the register file, in the order `VF_ORDER` gives (R162, R163). -/
def aluWrite (op : AluOp) (x : Reg) (b : Operand) (rnd : Byte) (s : State) : State :=
  match s.params.vfOrder with
  | .flagLast => aluFlagLast op x b rnd s
  | .sequential => if flagFirst op then aluFlagFirst op x b rnd s else aluFlagLast op x b rnd s

end Sys2Proof.Machine
end

