-- ==== Sys2Proof/Machine/Alu.lean ====
section
/-! DEFINITION. The register arithmetic family (43_alu.md R160-R177): 6xkk, 7xkk, 8xy0-8xy7, 8xyE, Cxkk. No instruction of it
reaches memory, changes pc beyond the step's advance, or raises a fatal outcome. -/

namespace Sys2Proof.Machine

/-- An alu_unit operation that draws no byte, after the pc advance. -/
def aluStep (op : AluOp) (x : Reg) (b : Operand) (s : State) : Host.Outcome State Fault Refusal :=
  .next (aluWrite op x b 0 s.advance)

/-- 6xkk: `V[x] <- kk` (R164). -/
def execLdVxKk (x : Reg) (kk : Byte) (s : State) : Host.Outcome State Fault Refusal := aluStep .ldi x (.imm kk) s

/-- 7xkk: `V[x] <- V[x] +8 kk`, no flag (R165). -/
def execAddVxKk (x : Reg) (kk : Byte) (s : State) : Host.Outcome State Fault Refusal := aluStep .addi x (.imm kk) s

/-- 8xy0: `V[x] <- V[y]` (R166). -/
def execLdVxVy (x y : Reg) (s : State) : Host.Outcome State Fault Refusal := aluStep .mov x (.reg y) s

/-- 8xy1 (R167). -/
def execOrVxVy (x y : Reg) (s : State) : Host.Outcome State Fault Refusal := aluStep .or x (.reg y) s

/-- 8xy2 (R168). -/
def execAndVxVy (x y : Reg) (s : State) : Host.Outcome State Fault Refusal := aluStep .and x (.reg y) s

/-- 8xy3 (R169). -/
def execXorVxVy (x y : Reg) (s : State) : Host.Outcome State Fault Refusal := aluStep .xor x (.reg y) s

/-- 8xy4: the truncated sum, and VF the carry (R170). -/
def execAddVxVy (x y : Reg) (s : State) : Host.Outcome State Fault Refusal := aluStep .add x (.reg y) s

/-- 8xy5: `V[x] -8 V[y]`, and VF whether V[x] was strictly greater (R171). -/
def execSubVxVy (x y : Reg) (s : State) : Host.Outcome State Fault Refusal := aluStep .sub x (.reg y) s

/-- 8xy6: V[x] shifted right by one, and VF the bit shifted out; V[y] does not matter (R172). -/
def execShrVx (x y : Reg) (s : State) : Host.Outcome State Fault Refusal := aluStep .shr x (.reg y) s

/-- 8xy7: `V[y] -8 V[x]`, and VF whether V[y] was strictly greater (R173). -/
def execSubnVxVy (x y : Reg) (s : State) : Host.Outcome State Fault Refusal := aluStep .subn x (.reg y) s

/-- 8xyE: V[x] shifted left by one, and VF the bit shifted out; V[y] does not matter (R174). -/
def execShlVx (x y : Reg) (s : State) : Host.Outcome State Fault Refusal := aluStep .shl x (.reg y) s

/-- Cxkk with the drawn byte `rnd`: `V[x] <- rnd & kk`, and one byte is drawn, whatever kk is (R176). -/
def rndWith (rnd : Byte) (x : Reg) (kk : Byte) (s : State) : State :=
  { aluWrite .rnd x (.imm kk) rnd s.advance with draws := s.draws + 1 }

/-- Cxkk: the drawn byte is the free value of this draw (R176, D17; log entry 2). -/
def execRndVxKk (x : Reg) (kk : Byte) (s : State) : Host.Outcome State Fault Refusal :=
  .next (rndWith (Config.randomByte s.draws) x kk s)

end Sys2Proof.Machine
end

