-- ==== Sys2Proof/Machine/Control.lean ====
section
/-! DEFINITION. The control-flow family (42_control_flow.md R140-R148): 00EE, 1nnn, 2nnn, 3xkk, 4xkk, 5xyn, 9xyn, Bnnn. No
instruction of it writes a general register. -/

namespace Sys2Proof.Machine

/-- A skip: the pc advance, and `pc <- pc +16 2` once more if the condition holds (R143-R146, R211, R212). -/
def skipIf (c : Bool) (s : State) : State := if c then s.advance.setPc (s.advance.pc + 2) else s.advance

/-- The equality compare of the alu_unit (43_alu.md R175). -/
def eqBytes (p q : Byte) : Bool := p == q

/-- 1nnn: `pc <- zext_16(addr)` (R140). -/
def execJpAddr (addr : Addr12) (s : State) : Host.Outcome State Fault Refusal := .next (s.setPc (zextAddr addr))

/-- 00EE: pop one address off the stack into pc; StackUnderflow at SP = 0 (R141). -/
def execRet (s : State) : Host.Outcome State Fault Refusal := outcome (s.advance.popPc s.pc)

/-- 2nnn: push the current pc (the address after the call), and go to addr; StackOverflow at SP = 16 (R142). -/
def execCallAddr (addr : Addr12) (s : State) : Host.Outcome State Fault Refusal :=
  outcome ((s.advance.push s.pc s.advance.pc).map (fun t => t.setPc (zextAddr addr)))

/-- 3xkk: skip if V[x] = kk (R143). -/
def execSeVxKk (x : Reg) (kk : Byte) (s : State) : Host.Outcome State Fault Refusal :=
  .next (skipIf (eqBytes (s.reg x) kk) s)

/-- 4xkk: skip if V[x] ≠ kk (R144). -/
def execSneVxKk (x : Reg) (kk : Byte) (s : State) : Host.Outcome State Fault Refusal :=
  .next (skipIf (!eqBytes (s.reg x) kk) s)

/-- 5xyn: skip if V[x] = V[y] (R145). `n` is ignored here; under `STRICT_5_9 = true` the dispatcher admits only n = 0. -/
def execSeVxVy (x y : Reg) (s : State) : Host.Outcome State Fault Refusal :=
  .next (skipIf (eqBytes (s.reg x) (s.reg y)) s)

/-- 9xyn: skip if V[x] ≠ V[y] (R146). `n` is ignored here, as for 5xyn. -/
def execSneVxVy (x y : Reg) (s : State) : Host.Outcome State Fault Refusal :=
  .next (skipIf (!eqBytes (s.reg x) (s.reg y)) s)

/-- Bnnn: `pc <- zext_16(addr) +16 zext_16(V[0])` (R147). -/
def execJpV0Addr (addr : Addr12) (s : State) : Host.Outcome State Fault Refusal :=
  .next (s.setPc (zextAddr addr + zextByte (s.reg 0)))

end Sys2Proof.Machine
end

