-- ==== Sys2Proof/Machine/Framebuffer.lean ====
section
/-! DEFINITION. framebuffer_updater (00_scope.md R13): Clear, and the Draw composite of 41_display.md R121. -/

namespace Sys2Proof.Machine

/-- `Clear` (R120): every cell false. -/
def clearFramebuffer : Framebuffer := Vector.replicate 32 (Vector.replicate 64 false)

/-- The cell at a row and a column. -/
def Framebuffer.pixel (fb : Framebuffer) (row : Fin 32) (col : Fin 64) : Bool := fb[row][col]

/-- The framebuffer with one cell replaced. -/
def Framebuffer.setPixel (fb : Framebuffer) (row : Fin 32) (col : Fin 64) (b : Bool) : Framebuffer :=
  fb.set row (fb[row].set col b)

/-- The row of sprite row `r`, which wraps modulo 32 (R121). -/
def screenRow (oy : Byte) (r : Nat) : Fin 32 := ⟨(oy.toNat + r) % 32, Nat.mod_lt _ (by decide)⟩

/-- The column of sprite column `c`, which wraps modulo 64 (R121). -/
def screenCol (ox : Byte) (c : Nat) : Fin 64 := ⟨(ox.toNat + c) % 64, Nat.mod_lt _ (by decide)⟩

/-- The bit of a sprite row at column offset `c`: bit 7 is the leftmost (R122, D16). -/
def spriteBit (row : Byte) (c : Nat) : Bool := row.getLsbD (7 - c)

/-- One pixel of the composite: a set source bit flips its cell, and a set cell that is flipped is a collision (R121). -/
def drawPixel (ox oy row : Byte) (r : Nat) (acc : Framebuffer × Bool) (c : Nat) : Framebuffer × Bool :=
  if spriteBit row c then
    let old := acc.1.pixel (screenRow oy r) (screenCol ox c)
    (acc.1.setPixel (screenRow oy r) (screenCol ox c) (!old), acc.2 || old)
  else acc

/-- The eight pixels of a sprite row, from left to right. -/
def drawRow (ox oy row : Byte) (r : Nat) (acc : Framebuffer × Bool) : Framebuffer × Bool :=
  (List.range 8).foldl (drawPixel ox oy row r) acc

/-- The sprite rows from row `r` on, from top to bottom. -/
def drawRows (ox oy : Byte) : Nat → List Byte → Framebuffer × Bool → Framebuffer × Bool
  | _, [], acc => acc
  | r, row :: rows, acc => drawRows ox oy (r + 1) rows (drawRow ox oy row r acc)

/-- `Draw(ox, oy, rows)` (R121): the framebuffer after the XOR composite, and the collision bit. -/
def draw (ox oy : Byte) (rows : List Byte) (fb : Framebuffer) : Framebuffer × Bool := drawRows ox oy 0 rows (fb, false)

end Sys2Proof.Machine
end

