-- ==== Sys2Proof/Machine/Display.lean ====
section
/-! DEFINITION. The display family (41_display.md R120-R123): 00E0 and Dxyn. -/

namespace Sys2Proof.Machine

/-- 00E0: every framebuffer cell false (R120). -/
def execCls (s : State) : Host.Outcome State Fault Refusal := .next { s.advance with fb := clearFramebuffer }

/-- The state after a draw: the composite in the framebuffer, and VF the collision bit, written last (R123). -/
def State.drawn (s : State) (result : Framebuffer × Bool) : State :=
  { s.setReg VF (flagByte result.2) with fb := result.1 }

/-- Dxyn: n sprite rows from `I` drawn at the origin (V[x], V[y]), and VF the collision bit (R123). The VF reset before the
draw shows only in the origin (`State.drawOrigin`). Under `MEM_OOB = FAULT` a row address out of range raises AddressRange. -/
def execDrwVxVyN (x y : Reg) (n : Nibble) (s : State) : Host.Outcome State Fault Refusal :=
  match s.rangeFault s.I n.toNat with
  | some f => raise f
  | none =>
    .next (s.advance.drawn
      (draw (s.drawOrigin x y).1 (s.drawOrigin x y).2 (s.peekBytes s.I n.toNat) s.fb))

end Sys2Proof.Machine
end

