-- ==== Sys2Proof/Machine/Index.lean ====
section
/-! DEFINITION. The index-register and memory family (44_index_memory.md R190-R196): Annn, Fx1E, Fx29, Fx33, Fx55, Fx65. `I` is
never changed by an access. -/

namespace Sys2Proof.Machine

/-- `bytes` stored from `I` on, after the pc advance; AddressRange under `MEM_OOB = FAULT` (R190, R194, R195). -/
def storeAtI (bytes : List Byte) (s : State) : Host.Outcome State Fault Refusal :=
  match s.rangeFault s.I bytes.length with
  | some f => raise f
  | none => .next (s.advance.pokeBytes s.I bytes)

/-- Annn: `I <- zext_16(addr)` (R191). -/
def execLdIAddr (addr : Addr12) (s : State) : Host.Outcome State Fault Refusal := .next (s.advance.setI (zextAddr addr))

/-- Fx1E: `I <- I +16 zext_16(V[x])`, no flag (R192). -/
def execAddIVx (x : Reg) (s : State) : Host.Outcome State Fault Refusal := .next (s.advance.setI (s.I + zextByte (s.reg x)))

/-- Fx29: `I <- zext_16(V[x]) * 5`, V[x] not masked to a digit (R193). -/
def execLdFVx (x : Reg) (s : State) : Host.Outcome State Fault Refusal := .next (s.advance.setI (zextByte (s.reg x) * 5))

/-- Fx33: the three digits of V[x] stored at I, I +16 1 and I +16 2 (R194). -/
def execLdBVx (x : Reg) (s : State) : Host.Outcome State Fault Refusal := storeAtI (bcdDigits (s.reg x)) s

/-- Fx55: V0 to V[x] stored from I on (R195). -/
def execLdMemVx (x : Reg) (s : State) : Host.Outcome State Fault Refusal := storeAtI (s.regsUpTo x) s

/-- Fx65: V0 to V[x] loaded from I on; AddressRange under `MEM_OOB = FAULT` (R196). -/
def execLdVxMem (x : Reg) (s : State) : Host.Outcome State Fault Refusal :=
  match s.rangeFault s.I (x.val + 1) with
  | some f => raise f
  | none => .next { s.advance with V := loadRegs s.V (s.peekBytes s.I (x.val + 1)) }

end Sys2Proof.Machine
end

