-- ==== Sys2Proof/Machine/KeysTimers.lean ====
section
/-! DEFINITION. The keypad and timer-register family (45_keys_timers.md R210-R217): Ex9E, ExA1, Fx07, Fx0A, Fx15, Fx18. -/

namespace Sys2Proof.Machine

/-- Ex9E: skip if key `keyidx(V[x])` is pressed; KeyRange under `KEY_OOB = FAULT` (R211, R217). -/
def execSkpVx (x : Reg) (s : State) : Host.Outcome State Fault Refusal :=
  match s.keyFault (s.reg x) with
  | some f => raise f
  | none => .next (skipIf (s.key (keyIndex (s.reg x))) s)

/-- ExA1: skip if key `keyidx(V[x])` is not pressed; KeyRange under `KEY_OOB = FAULT` (R212, R217). -/
def execSknpVx (x : Reg) (s : State) : Host.Outcome State Fault Refusal :=
  match s.keyFault (s.reg x) with
  | some f => raise f
  | none => .next (skipIf (!s.key (keyIndex (s.reg x))) s)

/-- Fx07: `V[x] <- DT` (R213). -/
def execLdVxDt (x : Reg) (s : State) : Host.Outcome State Fault Refusal := .next (s.advance.setReg x s.DT)

/-- The key number as the byte V[x] takes (R214). -/
def keyByte (k : Reg) : Byte := BitVec.ofNat 8 k.val

/-- Wait-for-key that found key `k` (R214): `wait` is cleared, V[x] takes the number, and under REFETCH execution goes on after
this instruction. -/
def State.keyFound (s : State) (x k : Reg) : State :=
  match s.params.waitPc with
  | .refetch => (({ s with wait := false } : State).setReg x (keyByte k)).setPc (s.pc + 2)
  | .literal => ({ s.advance with wait := false } : State).setReg x (keyByte k)

/-- Wait-for-key that found no key (R214): `wait` is set, and under REFETCH this instruction is fetched again. -/
def State.keyAwaited (s : State) : State :=
  match s.params.waitPc with
  | .refetch => { s with wait := true }
  | .literal => { s.advance with wait := true }

/-- Fx0A: wait for a key (R214). Under REFETCH the handler writes pc itself (the fetch address, `s.pc`, or the address after
it); under LITERAL only the gate of R100 acts on pc. -/
def execLdVxK (x : Reg) (s : State) : Host.Outcome State Fault Refusal :=
  match lastPressed s with
  | some k => .next (s.keyFound x k)
  | none => .next s.keyAwaited

/-- Fx15: `DT <- V[x]` (R215). -/
def execLdDtVx (x : Reg) (s : State) : Host.Outcome State Fault Refusal := .next { s.advance with DT := s.reg x }

/-- Fx18: `ST <- V[x]` (R216). -/
def execLdStVx (x : Reg) (s : State) : Host.Outcome State Fault Refusal := .next { s.advance with ST := s.reg x }

end Sys2Proof.Machine
end

