-- ==== Sys2Proof/Machine/Step.lean ====
section
/-! DEFINITION. One `step()` (30_encoding.md R100), and the placing of one instruction where the next step fetches. -/

namespace Sys2Proof.Machine

/-- One `step()` (R100): refused while faulted (60_exceptions.md R231); else the word at pc is fetched and selected, and its
operation executed. -/
def step (s : State) : Host.Outcome State Fault Refusal :=
  if s.faulted then .refused .coreFaulted
  else
    match fetchInstr s with
    | .error f => raise f
    | .ok i => exec i s

/-- The instruction with bits `w` (numbered as spec/opcode_table.json numbers them) stored at pc, high byte first. -/
def State.withFetchWord (s : State) (nbits w : Nat) : State := s.storeWord (BitVec.ofNat 16 (w % 2 ^ nbits))

end Sys2Proof.Machine
end

