-- ==== Sys2Proof/Machine/Transactions.lean ====
section
/-! DEFINITION. The host's side of the CORE (00_scope.md R7; 60_exceptions.md R231, R240-R248; 70_reset_and_hazards.md R260,
R261, R270): the transactions load, step, tick_timers, set_keys, reset, and the host's reads. -/

namespace Sys2Proof

/-- The state that a fatal outcome leaves, before `faulted` is recorded: unspecified (60_exceptions.md R231, D13). It has no
body, so no claim can be proved of it. -/
opaque Config.stateAfterFault : Machine.State → Machine.Fault → Machine.State

namespace Machine

/-- The host's read of framebuffer cell `k`, which the spec numbers `row*64 + col` (10_state.md R55; 60_exceptions.md R246). -/
def State.cell (s : State) (k : Fin 2048) : Bool :=
  s.fb.pixel ⟨k.val / 64, by omega⟩ ⟨k.val % 64, Nat.mod_lt _ (by decide)⟩

/-- The host's read of ST (R246). -/
def State.soundTimer (s : State) : Byte := s.ST

/-- One timer after a tick: one less, and 0 stays 0 (R240). -/
def tickDown (t : Byte) : Byte := if t = 0 then 0 else t - 1

/-- `tick_timers()` of a CORE that is not faulted (R240). -/
def State.tickTimers (s : State) : State := { s with DT := tickDown s.DT, ST := tickDown s.ST }

/-- `set_keys(k[16])` of a CORE that is not faulted (45_keys_timers.md R210). -/
def State.setKeys (s : State) (k : Vector Bool 16) : State := { s with keys := k }

/-- The image bytes stored from 0x200 on (20_memory.md R84). -/
def State.loadImage (s : State) (image : List Byte) : State := s.pokeBytes Config.programBase image

/-- The parameters that only a reset reads (00_scope.md R16): `FONT` (D11) and `RESET_FREE` (D10). -/
structure ResetParams where
  /-- The 80 font bytes (10_state.md R57). -/
  font : Vector Byte 80
  /-- Whether the values that D10 decides are unconstrained. -/
  resetFree : Bool
  deriving DecidableEq, Repr

/-- The default `FONT` and `RESET_FREE = false`. -/
def defaultResetParams : ResetParams := { font := Vector.ofFn (fun k : Fin 80 => unlistedByte k), resetFree := false }

/-- Reset (70_reset_and_hazards.md R260): a new instance with parameters `p`. Under `RESET_FREE = true` every value that D10
decides is that of `free`, an arbitrary state; pc, the font region and `faulted` are fixed (10_state.md R60, R64). The count of
draws goes on, since the random source is no part of the Machine State (R61). -/
def resetCore (p : Params) (rp : ResetParams) (free : State) : State :=
  let base := if rp.resetFree then free else State.reset
  { base with
    pc := Config.programBase
    mem := base.mem.writeBytes 0 rp.font.toList
    faulted := false
    params := p
    draws := free.draws }

/-- The CORE and what the host's boot order adds to it (70_reset_and_hazards.md R261). -/
structure Session where
  /-- The CORE's state. -/
  core : State
  /-- True from reset to the first `step`: while it holds, `load` is admitted (20_memory.md R84, D22). Log entry 17. -/
  booting : Bool
  /-- The parameters of this instance's reset. -/
  resetParams : ResetParams

/-- What the host asks of the CORE (00_scope.md R7), and reset (R260). -/
inductive HostCall where
  /-- `load(bytes, base_offset)` (R84). -/
  | load (image : List Byte) (base : Word)
  /-- `step()` (R100). -/
  | step
  /-- `tick_timers()` (R240). -/
  | tickTimers
  /-- `set_keys(bool[16])` (R210). -/
  | setKeys (k : Vector Bool 16)
  /-- A reset (R260); `free` gives the values that `RESET_FREE = true` leaves unconstrained. -/
  | reset (free : State)

/-- What the CORE answers to a transaction: `Ok`, a fatal outcome, or a refusal. -/
inductive Reply where
  | ok
  | fault (f : Fault)
  | refused (r : Refusal)
  deriving DecidableEq, Repr

/-- The session after a step that returned a fatal outcome: `faulted` is true, and the rest of the state is unspecified (R231).
The parameters and the count of draws are no state of the CORE, and stay. -/
def Session.fail (S : Session) (f : Fault) : Session :=
  { S with
    core := { Config.stateAfterFault S.core f with faulted := true, params := S.core.params, draws := S.core.draws }
    booting := false }

/-- Why `load` is refused, if it is (R84, D22; R231). -/
def Session.loadRefusal (S : Session) (image : List Byte) (base : Word) : Option Refusal :=
  if S.core.faulted then some .coreFaulted
  else if base ≠ Config.programBase then some (.loadBase base)
  else if Config.maxImage < image.length then some (.loadTooLong image.length)
  else if !S.booting then some .loadTooLate
  else none

/-- One host transaction: atomic, and in one total order with the others (20_memory.md R77, R80). -/
def transact (c : HostCall) (S : Session) : Reply × Session :=
  match c with
  | .load image base =>
    match S.loadRefusal image base with
    | some r => (.refused r, S)
    | none => (.ok, { S with core := S.core.loadImage image })
  | .step =>
    match Sys2Proof.Machine.step S.core with
    | .next t => (.ok, { S with core := t, booting := false })
    | .fault f => (.fault f, S.fail f)
    | .refused r => (.refused r, S)
  | .tickTimers =>
    if S.core.faulted then (.refused .coreFaulted, S) else (.ok, { S with core := S.core.tickTimers })
  | .setKeys k =>
    if S.core.faulted then (.refused .coreFaulted, S) else (.ok, { S with core := S.core.setKeys k })
  | .reset free =>
    (.ok, { S with core := resetCore S.core.params S.resetParams { free with draws := S.core.draws }, booting := true })

/-- A finite host schedule (70_reset_and_hazards.md R270): the session after its transactions. -/
def runSchedule : List HostCall → Session → Session
  | [], S => S
  | c :: cs, S => runSchedule cs (transact c S).2

/-- An infinite host schedule (R270): transaction `n` is `calls n`. -/
abbrev Schedule := Nat → HostCall

/-- The session before transaction `n` of an infinite schedule, that is after its first `n` transactions. -/
def sessionAt (calls : Schedule) (S : Session) : Nat → Session
  | 0 => S
  | n + 1 => (transact (calls n) (sessionAt calls S n)).2

/-- The CORE's answer to transaction `n` of an infinite schedule. -/
def replyAt (calls : Schedule) (S : Session) (n : Nat) : Reply := (transact (calls n) (sessionAt calls S n)).1

/-- The session after reset with the default parameters. -/
def Session.initial : Session := { core := State.reset, booting := true, resetParams := defaultResetParams }

/-- The numeric code of a fault kind (60_exceptions.md R232). -/
def Fault.code : Fault → Nat
  | .stackUnderflow _ => 1
  | .stackOverflow _ => 2
  | .unknownOpcode _ _ => 3
  | .addressRange _ _ => 4
  | .keyRange _ _ => 5

end Machine

end Sys2Proof
end

