-- ==== Sys2Proof/Safety.lean ====
section
/-! DEFINITION. The terms statements use: the parts of the state and what an instruction may write (its footprint), the
invariant of the CORE and of a session, and the rows of the opcode table. -/

namespace Sys2Proof.Machine

/-- One independently observable part of the state (10_state.md). -/
inductive Part where
  | reg (r : Reg)
  | index
  | pc
  | sp
  | slot (k : Fin 16)
  | delay
  | sound
  | byte (a : Word)
  | pixel (row : Fin 32) (col : Fin 64)
  | key (k : Reg)
  | wait
  | faulted
  | params
  | draws

/-- The part reads the same in both states. A byte is read as the model reads it, by `State.peek`. -/
def Part.same (s t : State) : Part → Prop
  | .reg r => t.reg r = s.reg r
  | .index => t.I = s.I
  | .pc => t.pc = s.pc
  | .sp => t.SP = s.SP
  | .slot k => t.stack[k] = s.stack[k]
  | .delay => t.DT = s.DT
  | .sound => t.ST = s.ST
  | .byte a => t.peek a = s.peek a
  | .pixel row col => t.fb.pixel row col = s.fb.pixel row col
  | .key k => t.key k = s.key k
  | .wait => t.wait = s.wait
  | .faulted => t.faulted = s.faulted
  | .params => t.params = s.params
  | .draws => t.draws = s.draws

/-- Every part of the state outside `P` is unchanged. -/
def ChangesOnly (s t : State) (P : Part → Prop) : Prop := ∀ p, ¬ P p → p.same s t

/-- The bytes that an access to `n` addresses from `I` reaches (44_index_memory.md R190). -/
def atI (s : State) (n : Nat) (p : Part) : Prop := ∃ a k, p = .byte a ∧ k < n ∧ phys a = phys (s.I + BitVec.ofNat 16 k)

/-- What each instruction may write, pc apart (10_state.md R42, R43, R51-R59; 20_memory.md R76). -/
def mayWrite (s : State) : Instr → Part → Prop
  | .cls, p => ∃ row col, p = .pixel row col
  | .ret, p => p = .sp
  | .callAddr _, p => p = .sp ∨ ∃ k, p = .slot k ∧ k.val = s.SP.val
  | .jpAddr _, _ | .jpV0Addr _, _ | .seVxKk _ _, _ | .sneVxKk _ _, _ | .seVxVy _ _ _, _ | .sneVxVy _ _ _, _ => False
  | .ldVxKk x _, p | .addVxKk x _, p | .ldVxVy x _, p | .orVxVy x _, p | .andVxVy x _, p | .xorVxVy x _, p => p = .reg x
  | .addVxVy x _, p | .subVxVy x _, p | .shrVx x _, p | .subnVxVy x _, p | .shlVx x _, p => p = .reg x ∨ p = .reg VF
  | .ldIAddr _, p | .addIVx _, p | .ldFVx _, p => p = .index
  | .rndVxKk x _, p => p = .reg x ∨ p = .draws
  | .drwVxVyN _ _ _, p => p = .reg VF ∨ ∃ row col, p = .pixel row col
  | .skpVx _, _ | .sknpVx _, _ => False
  | .ldVxDt x, p => p = .reg x
  | .ldVxK x, p => p = .wait ∨ (p = .reg x ∧ ∃ k, s.key k = true)
  | .ldDtVx _, p => p = .delay
  | .ldStVx _, p => p = .sound
  | .ldBVx _, p => atI s 3 p
  | .ldMemVx x, p => atI s (x.val + 1) p
  | .ldVxMem x, p => ∃ r, p = .reg r ∧ r ≤ x

/-- A function applied to the state of a finished instruction; a fatal outcome or a refusal stays as it is. -/
def mapNext (f : State → State) : Host.Outcome State Fault Refusal → Host.Outcome State Fault Refusal
  | .next t => .next (f t)
  | .fault e => .fault e
  | .refused r => .refused r

/-- Every address of an access to `n` addresses from `base` is in range (20_memory.md R72): always under `MEM_OOB = WRAP`. -/
def InRange (s : State) (base : Word) (n : Nat) : Prop :=
  s.params.memOob = .wrap ∨ ∀ k, k < n → (base + BitVec.ofNat 16 k).toNat < 4096

/-- Some sprite bit of Dxyn reaches the cell at `row` and `col`: bit 7 - c of the byte at `I +16 r`, drawn from origin
(ox, oy) (41_display.md R121-R123). -/
def SpriteReaches (s : State) (ox oy : Byte) (n : Nibble) (row : Fin 32) (col : Fin 64) : Prop :=
  ∃ r c, r < n.toNat ∧ c < 8 ∧ (s.peek (s.I + BitVec.ofNat 16 r)).getLsbD (7 - c) = true ∧
    row.val = (oy.toNat + r) % 32 ∧ col.val = (ox.toNat + c) % 64

/-- While the CORE waits under REFETCH, pc holds the blocking Fx0A (45_keys_timers.md R214). -/
def WaitsAtKey (s : State) : Prop :=
  s.wait = true → s.params.waitPc = .refetch → ∃ x, fetchInstr s = .ok (.ldVxK x)

/-- The invariant of the CORE: memory keeps its canonical form, and a waiting CORE stands at its Fx0A. -/
def Inv (s : State) : Prop := s.mem.wf = true ∧ WaitsAtKey s

/-- The invariant of a session: a CORE that is not faulted keeps `Inv`, and before the first step it does not wait. -/
def Session.Inv (S : Session) : Prop :=
  S.core.faulted = true ∨ (Machine.Inv S.core ∧ (S.booting = true → S.core.wait = false))

/-- A safe run: the CORE is not faulted, and a step finishes. -/
def Runs (s : State) : Prop := s.faulted = false ∧ ∃ t, step s = .next t

/-- A row of the opcode table of 30_encoding.md R109: a word matches it when `w &&& mask = pattern`. -/
structure Row where
  pattern : Word
  mask : Word
  deriving DecidableEq, Repr

/-- The word selects the row. -/
def Row.matches (r : Row) (w : Word) : Bool := w &&& r.mask == r.pattern

/-- The mask of families 5 and 9 (R108). -/
def lowNibbleMask (strict : Bool) : Word := if strict then 0xF00F else 0xF000

/-- The row of an instruction in the table of R109. -/
def rowOf (strict : Bool) : Instr → Row
  | .cls => ⟨0x00E0, 0xFFFF⟩
  | .ret => ⟨0x00EE, 0xFFFF⟩
  | .jpAddr _ => ⟨0x1000, 0xF000⟩
  | .callAddr _ => ⟨0x2000, 0xF000⟩
  | .seVxKk _ _ => ⟨0x3000, 0xF000⟩
  | .sneVxKk _ _ => ⟨0x4000, 0xF000⟩
  | .seVxVy _ _ _ => ⟨0x5000, lowNibbleMask strict⟩
  | .ldVxKk _ _ => ⟨0x6000, 0xF000⟩
  | .addVxKk _ _ => ⟨0x7000, 0xF000⟩
  | .ldVxVy _ _ => ⟨0x8000, 0xF00F⟩
  | .orVxVy _ _ => ⟨0x8001, 0xF00F⟩
  | .andVxVy _ _ => ⟨0x8002, 0xF00F⟩
  | .xorVxVy _ _ => ⟨0x8003, 0xF00F⟩
  | .addVxVy _ _ => ⟨0x8004, 0xF00F⟩
  | .subVxVy _ _ => ⟨0x8005, 0xF00F⟩
  | .shrVx _ _ => ⟨0x8006, 0xF00F⟩
  | .subnVxVy _ _ => ⟨0x8007, 0xF00F⟩
  | .shlVx _ _ => ⟨0x800E, 0xF00F⟩
  | .sneVxVy _ _ _ => ⟨0x9000, lowNibbleMask strict⟩
  | .ldIAddr _ => ⟨0xA000, 0xF000⟩
  | .jpV0Addr _ => ⟨0xB000, 0xF000⟩
  | .rndVxKk _ _ => ⟨0xC000, 0xF000⟩
  | .drwVxVyN _ _ _ => ⟨0xD000, 0xF000⟩
  | .skpVx _ => ⟨0xE09E, 0xF0FF⟩
  | .sknpVx _ => ⟨0xE0A1, 0xF0FF⟩
  | .ldVxDt _ => ⟨0xF007, 0xF0FF⟩
  | .ldVxK _ => ⟨0xF00A, 0xF0FF⟩
  | .ldDtVx _ => ⟨0xF015, 0xF0FF⟩
  | .ldStVx _ => ⟨0xF018, 0xF0FF⟩
  | .addIVx _ => ⟨0xF01E, 0xF0FF⟩
  | .ldFVx _ => ⟨0xF029, 0xF0FF⟩
  | .ldBVx _ => ⟨0xF033, 0xF0FF⟩
  | .ldMemVx _ => ⟨0xF055, 0xF0FF⟩
  | .ldVxMem _ => ⟨0xF065, 0xF0FF⟩

/-- The whole table of R109, in its order. -/
def opcodeRows (strict : Bool) : List Row :=
  [⟨0x00E0, 0xFFFF⟩, ⟨0x00EE, 0xFFFF⟩, ⟨0x1000, 0xF000⟩, ⟨0x2000, 0xF000⟩, ⟨0x3000, 0xF000⟩, ⟨0x4000, 0xF000⟩,
    ⟨0x5000, lowNibbleMask strict⟩, ⟨0x6000, 0xF000⟩, ⟨0x7000, 0xF000⟩] ++
  [⟨0x8000, 0xF00F⟩, ⟨0x8001, 0xF00F⟩, ⟨0x8002, 0xF00F⟩, ⟨0x8003, 0xF00F⟩, ⟨0x8004, 0xF00F⟩, ⟨0x8005, 0xF00F⟩,
    ⟨0x8006, 0xF00F⟩, ⟨0x8007, 0xF00F⟩, ⟨0x800E, 0xF00F⟩, ⟨0x9000, lowNibbleMask strict⟩] ++
  [⟨0xA000, 0xF000⟩, ⟨0xB000, 0xF000⟩, ⟨0xC000, 0xF000⟩, ⟨0xD000, 0xF000⟩, ⟨0xE09E, 0xF0FF⟩, ⟨0xE0A1, 0xF0FF⟩] ++
  [⟨0xF007, 0xF0FF⟩, ⟨0xF00A, 0xF0FF⟩, ⟨0xF015, 0xF0FF⟩, ⟨0xF018, 0xF0FF⟩, ⟨0xF01E, 0xF0FF⟩, ⟨0xF029, 0xF0FF⟩,
    ⟨0xF033, 0xF0FF⟩, ⟨0xF055, 0xF0FF⟩, ⟨0xF065, 0xF0FF⟩]

end Sys2Proof.Machine
end

