-- ==== Sys2Proof/Certificates/Slice0/Obligations.lean ====
section
/-! DEFINITION. The statements for the provers. A docstring names the rules of spec/ a statement formalises; where the spec
marks one of them as its own decision or as general knowledge, the docstring says so and names the log entry. -/

open Sys2Proof Sys2Proof.Machine

/-! ### Reset -/

/-- 70_reset_and_hazards.md R260, 10_state.md R64: pc and the font region from the source; `faulted` false; every other value is
the spec's decision D10 (log entry 3), or unconstrained under `RESET_FREE = true` (log entry 24). `State.reset` is the default
case, with the default font (D11, log entry 4). The reset transaction is that reset, with the session's own parameters; it is
always accepted. That the count of draws goes on is the model's choice (log entries 2 and 24). -/
def Obligations.ResetLeavesTheListedValues : Prop :=
  (∀ (p : Params) (rp : ResetParams) (free : State),
    let s := resetCore p rp free
    s.pc = 0x0200 ∧ s.faulted = false ∧ s.params = p ∧ s.draws = free.draws ∧ (∀ k : Fin 80, s.mem.read k.val = rp.font[k]) ∧
    (rp.resetFree = false →
      (∀ r, s.reg r = 0) ∧ s.I = 0 ∧ s.SP = 0 ∧ (∀ k : Fin 16, s.stack[k] = 0) ∧ s.DT = 0 ∧ s.ST = 0 ∧
      (∀ k, 80 ≤ k → s.mem.read k = 0) ∧ (∀ row col, s.fb.pixel row col = false) ∧ (∀ k, s.key k = false) ∧
      s.wait = false) ∧
    (rp.resetFree = true →
      s.V = free.V ∧ s.I = free.I ∧ s.SP = free.SP ∧ s.stack = free.stack ∧ s.DT = free.DT ∧ s.ST = free.ST ∧
      (∀ k, 80 ≤ k → s.mem.read k = free.mem.read k) ∧ s.fb = free.fb ∧ s.keys = free.keys ∧ s.wait = free.wait)) ∧
  (∀ free : State, resetCore {} defaultResetParams free = { State.reset with draws := free.draws }) ∧
  (∀ (S : Session) (free : State),
    (transact (.reset free) S).1 = .ok ∧ (transact (.reset free) S).2.resetParams = S.resetParams ∧
    (transact (.reset free) S).2.core = resetCore S.core.params S.resetParams { free with draws := S.core.draws })

/-- The reset state meets the invariant of the CORE (`Inv`), and the session after reset that of a session. The model's choices it rests
on: the canonical form of memory (log entry 22), the time for loading as a field of the session (log entry 17), and the reset
values, which are the spec's decision D10 (log entry 3), among them that `wait` is false. -/
def Obligations.ResetMeetsTheInvariant : Prop := Inv State.reset ∧ Session.initial.Inv

/-! ### Memory and fetch -/

/-- 20_memory.md R70: a byte written is the byte read, at every address with the same physical address, and a write changes only
the one byte it names. -/
def Obligations.ByteWriteThenRead : Prop :=
  ∀ (s : State) (a : Word) (v : Byte),
    (s.poke a v).peek a = v ∧ s.peek a = s.mem.read (phys a) ∧
    ChangesOnly s (s.poke a v) (fun p => ∃ b, p = .byte b ∧ phys b = phys a) ∧
    (∀ b, phys b = phys a → (s.poke a v).peek b = v)

/-- The model's canonical form of memory (log entry 22): every write keeps it, and two memories in it that read the same at every
address of the 4096 bytes are equal data. -/
def Obligations.MemoryHasOneForm : Prop :=
  (∀ (m : Mem) (a : Word) (v : Byte), m.wf = true → (m.write (phys a) v).wf = true) ∧
  (∀ (m : Mem) (base : Word) (bytes : List Byte), m.wf = true → (m.writeBytes base bytes).wf = true) ∧
  (∀ m m' : Mem, m.wf = true → m'.wf = true → (∀ a : Word, m.read (phys a) = m'.read (phys a)) → m = m')

/-- 20_memory.md R71-R75: the fetch is big-endian, at any pc, odd or not (D4, log entry 25), and reads bytes `pc mod 4096` and
`(pc +16 1) mod 4096` under WRAP (D3, log entry 5); under FAULT (D3) it raises AddressRange. That the address it names is the first of
pc and pc +16 1 that is 4096 or above is the model's choice, no rule's words (DEDUCED, log entry 13). -/
def Obligations.FetchIsBigEndian : Prop :=
  (∀ s : State, InRange s s.pc 2 → ∃ w, fetch s = .ok w ∧
    w.toNat = 256 * (s.mem.read (s.pc.toNat % 4096)).toNat + (s.mem.read ((s.pc + 1).toNat % 4096)).toNat) ∧
  (∀ s : State, s.params.memOob = .fault → 4096 ≤ s.pc.toNat → fetch s = .error (.addressRange s.pc s.pc)) ∧
  (∀ s : State, s.params.memOob = .fault → s.pc.toNat = 4095 → fetch s = .error (.addressRange 0x1000 s.pc))

/-- 20_memory.md R83, R74 and 30_encoding.md R100: an instruction stored at pc is the one the next step runs (D20). -/
def Obligations.StoredInstructionRuns : Prop :=
  ∀ (s : State) (i : Instr), s.faulted = false → InRange s s.pc 2 → i.wellFormed s.params.strict59 = true →
    step (s.storeWord (encode i)) = exec i (s.storeWord (encode i))

/-! ### Encoding -/

/-- Words written out from the table of 30_encoding.md R109 (opcode values from the spec's general knowledge, log entry 10)
decode to the instructions they stand for. -/
def Obligations.TableWordsDecode : Prop :=
  decode false 0x00E0 = .ok .cls ∧ decode false 0x1234 = .ok (.jpAddr 0x234) ∧ decode false 0x5121 = .ok (.seVxVy 1 2 1) ∧
  decode true 0x5121 = .error .lowNibble ∧ decode false 0x8AB4 = .ok (.addVxVy 0xA 0xB) ∧
  decode false 0xC30F = .ok (.rndVxKk 3 0x0F) ∧ decode false 0xD125 = .ok (.drwVxVyN 1 2 5) ∧
  decode false 0xE19E = .ok (.skpVx 1) ∧ decode false 0xE1AE = .error .familyE ∧ decode false 0xF165 = .ok (.ldVxMem 1) ∧
  decode false 0xFFFF = .error .familyF ∧ decode false 0x0123 = .error .family0

/-- 30_encoding.md R109, R91: decoding the word of a well-formed instruction gives the instruction back, every field at every
value, under both settings of `STRICT_5_9`. -/
def Obligations.DecodeOfEncode : Prop :=
  ∀ (strict : Bool) (i : Instr), i.wellFormed strict = true → decode strict (encode i) = .ok i

/-- 30_encoding.md R111, R114: every word has one meaning: a word that decodes to an instruction is the word of that instruction,
with no bit dropped, and the instruction is well formed. -/
def Obligations.EncodeOfDecode : Prop :=
  ∀ (strict : Bool) (w : Word) (i : Instr), decode strict w = .ok i → encode i = w ∧ i.wellFormed strict = true

/-- 30_encoding.md R109, R110: a word decodes to an instruction exactly if it matches that instruction's row, it is rejected exactly
if it matches no row, and no two rows match one word. The rows' values are the spec's general knowledge (log entry 10). -/
def Obligations.OpcodeRowsDecideDecoding : Prop :=
  ∀ strict : Bool,
    (∀ w i, decode strict w = .ok i → (rowOf strict i).matches w = true ∧ rowOf strict i ∈ opcodeRows strict) ∧
    (∀ w, (∃ e, decode strict w = .error e) ↔ ∀ r ∈ opcodeRows strict, r.matches w = false) ∧
    (∀ w, ∀ r ∈ opcodeRows strict, ∀ r' ∈ opcodeRows strict, r.matches w = true → r'.matches w = true → r = r')

/-! ### The step -/

/-- 30_encoding.md R100, R103: a CORE that is not faulted runs the instruction its bytes at pc decode to; a word that the decoder
rejects ends the step with UnknownOpcode, the word and the fetch address (R103); a fetch out of range (D3, log entry 5) comes first (60_exceptions.md
R233, D12, log entry 13); a faulted CORE has no transition (R231, D13), under the refusal the model names (log entry 15). -/
def Obligations.StepRunsTheDecodedInstruction : Prop :=
  (∀ (s : State) (w : Word) (i : Instr), s.faulted = false → fetch s = .ok w → decode s.params.strict59 w = .ok i →
    step s = exec i s) ∧
  (∀ (s : State) (w : Word) (e : DecodeError), s.faulted = false → fetch s = .ok w → decode s.params.strict59 w = .error e →
    step s = .fault (.unknownOpcode w s.pc)) ∧
  (∀ (s : State) (f : Fault), s.faulted = false → fetch s = .error f → step s = .fault f) ∧
  (∀ s : State, s.faulted = true → step s = .refused .coreFaulted)

/-- 10_state.md R45: pc changes in these ways only. `nextPc` is the pre-dispatch advance: the fetch address + 2, or the fetch address
while the input-wait flag is set. -/
def Obligations.PcChangesInTheseWaysOnly : Prop :=
  (∀ s : State, s.nextPc = if s.wait = true then s.pc else s.pc + 2) ∧
  (∀ (i : Instr) (s t : State), exec i s = .next t →
    match i with
    | .jpAddr addr | .callAddr addr => t.pc = addr.setWidth 16
    | .jpV0Addr addr => t.pc = addr.setWidth 16 + (s.reg 0).setWidth 16
    | .ret => ∃ k : Fin 16, k.val + 1 = s.SP.val ∧ t.pc = s.stack[k]
    | .seVxKk _ _ | .sneVxKk _ _ | .seVxVy _ _ _ | .sneVxVy _ _ _ | .skpVx _ | .sknpVx _ =>
      t.pc = s.nextPc ∨ t.pc = s.nextPc + 2
    | .ldVxK _ =>
      (s.params.waitPc = .refetch → t.pc = if t.wait = true then s.pc else s.pc + 2) ∧
      (s.params.waitPc = .literal → t.pc = s.nextPc)
    | _ => t.pc = s.nextPc) ∧
  (∀ (s : State) (k : Vector Bool 16) (image : List Byte),
    s.tickTimers.pc = s.pc ∧ (s.setKeys k).pc = s.pc ∧ (s.loadImage image).pc = s.pc)

/-- 10_state.md R42, R43, R51-R59 and 20_memory.md R76, with the frame rule of D18: an instruction that finishes changes nothing but pc
and the parts `mayWrite` lists for it; a byte of memory outside the stored addresses reads as before. -/
def Obligations.InstructionFootprint : Prop :=
  ∀ (i : Instr) (s t : State), exec i s = .next t → ChangesOnly s t (fun p => p = .pc ∨ mayWrite s i p)

/-- 42_control_flow.md R148: no instruction but 2nnn and 00EE reads or writes the stack: with any other stack and SP it does the same and
leaves them. -/
def Obligations.OnlyCallAndReturnUseTheStack : Prop :=
  ∀ (i : Instr) (s : State) (stack : Vector Word 16) (sp : Fin 17), i ≠ .ret → (∀ addr, i ≠ .callAddr addr) →
    exec i { s with stack := stack, SP := sp } = mapNext (fun t => { t with stack := stack, SP := sp }) (exec i s)

/-- 10_state.md R55, R58, R59: no instruction but 00E0 and Dxyn reads or writes the framebuffer; none writes the key snapshot, and none but
Ex9E, ExA1 and Fx0A reads it; none but Fx0A writes the input-wait flag. -/
def Obligations.DisplayAndInputAccess : Prop :=
  (∀ (i : Instr) (s : State) (fb : Framebuffer), i ≠ .cls → (∀ x y n, i ≠ .drwVxVyN x y n) →
    exec i { s with fb := fb } = mapNext (fun t => { t with fb := fb }) (exec i s)) ∧
  (∀ (i : Instr) (s : State) (keys : Vector Bool 16), (∀ x, i ≠ .skpVx x) → (∀ x, i ≠ .sknpVx x) → (∀ x, i ≠ .ldVxK x) →
    exec i { s with keys := keys } = mapNext (fun t => { t with keys := keys }) (exec i s)) ∧
  (∀ (i : Instr) (s t : State), exec i s = .next t → t.keys = s.keys) ∧
  (∀ (i : Instr) (s t : State), (∀ x, i ≠ .ldVxK x) → exec i s = .next t → t.wait = s.wait)

/-- 60_exceptions.md R241: DT is written by Fx15 and read by Fx07 only, ST is written by Fx18 and read by no instruction but only by the host,
and a tick counts each down by one and stops at 0. Fx15 and Fx18 do the same whatever the timer they write held. -/
def Obligations.TimersCoupleByTheirInstructionsOnly : Prop :=
  (∀ (i : Instr) (s : State) (dt : Byte), (∀ x, i ≠ .ldVxDt x) → (∀ x, i ≠ .ldDtVx x) →
    exec i { s with DT := dt } = mapNext (fun t => { t with DT := dt }) (exec i s)) ∧
  (∀ (i : Instr) (s : State) (st : Byte), (∀ x, i ≠ .ldStVx x) →
    exec i { s with ST := st } = mapNext (fun t => { t with ST := st }) (exec i s)) ∧
  (∀ (x : Reg) (s : State), ∃ t, exec (.ldVxDt x) s = .next t ∧ t.reg x = s.DT ∧ t.DT = s.DT) ∧
  (∀ (x : Reg) (s : State), ∃ t, exec (.ldDtVx x) s = .next t ∧ t.DT = s.reg x ∧
    ∀ dt : Byte, exec (.ldDtVx x) { s with DT := dt } = .next t) ∧
  (∀ (x : Reg) (s : State), ∃ t, exec (.ldStVx x) s = .next t ∧ t.ST = s.reg x ∧
    ∀ st : Byte, exec (.ldStVx x) { s with ST := st } = .next t) ∧
  (∀ s : State, s.soundTimer = s.ST) ∧
  (∀ s : State, s.tickTimers.DT.toNat = s.DT.toNat - 1 ∧ s.tickTimers.ST.toNat = s.ST.toNat - 1)

/-! ### Fatal conditions -/

/-- 60_exceptions.md R230: with no model-only fault admitted (`MEM_OOB` and `KEY_OOB` at WRAP), a step of a CORE that is not faulted ends in
one of exactly three fatal outcomes, each under its own condition, and otherwise it finishes; the outcome is the transaction's reply, and
no step follows it (R231). The info each outcome records is the spec's decision D12 (R232, log entry 13); that a faulted CORE refuses is D13
(log entries 12 and 15). -/
def Obligations.ExactlyThreeFatalConditions : Prop :=
  ∀ s : State, s.params.memOob = .wrap → s.params.keyOob = .wrap → s.faulted = false →
    ∃ w, fetch s = .ok w ∧
      (∀ f, step s = .fault f ↔
        ((∃ e, decode s.params.strict59 w = .error e) ∧ f = .unknownOpcode w s.pc) ∨
        (decode s.params.strict59 w = .ok .ret ∧ s.SP.val = 0 ∧ f = .stackUnderflow s.pc) ∨
        (∃ addr, decode s.params.strict59 w = .ok (.callAddr addr) ∧ s.SP.val = 16 ∧ f = .stackOverflow s.pc)) ∧
      ((∀ f, step s ≠ .fault f) → Runs s) ∧
      (∀ (S : Session) (f : Fault), S.core = s → step s = .fault f →
        (transact .step S).1 = .fault f ∧ Machine.step (transact .step S).2.core = .refused .coreFaulted)

/-- 60_exceptions.md R232, R233 and 20_memory.md R72 (the spec's decisions D3, D9, D12, log entries 5, 9 and 13): under any setting, an
instruction ends in a fatal outcome exactly under its own condition, and `exec` refuses nothing. -/
def Obligations.FatalOutcomesPerInstruction : Prop :=
  ∀ (i : Instr) (s : State),
    (∀ r, exec i s ≠ .refused r) ∧
    ((∃ f, exec i s = .fault f) ↔
      match i with
      | .ret => s.SP.val = 0
      | .callAddr _ => s.SP.val = 16
      | .drwVxVyN _ _ n => ¬ InRange s s.I n.toNat
      | .ldBVx _ => ¬ InRange s s.I 3
      | .ldMemVx x | .ldVxMem x => ¬ InRange s s.I (x.val + 1)
      | .skpVx x | .sknpVx x => s.params.keyOob = .fault ∧ 16 ≤ (s.reg x).toNat
      | _ => False)

/-- 20_memory.md R72 and 60_exceptions.md R232 (D3, D12; log entries 5 and 13), under `MEM_OOB = FAULT`: Dxyn, Fx33, Fx55 and Fx65 raise
AddressRange with the first address out of range, in increasing order of k, and the fetch address. -/
def Obligations.AddressRangeNamesTheFirstAddress : Prop :=
  ∀ (s : State) (k : Nat), s.params.memOob = .fault → 4096 ≤ (s.I + BitVec.ofNat 16 k).toNat →
    (∀ j, j < k → (s.I + BitVec.ofNat 16 j).toNat < 4096) →
    (∀ x y n, k < n.toNat → exec (.drwVxVyN x y n) s = .fault (.addressRange (s.I + BitVec.ofNat 16 k) s.pc)) ∧
    (∀ x, k < 3 → exec (.ldBVx x) s = .fault (.addressRange (s.I + BitVec.ofNat 16 k) s.pc)) ∧
    (∀ x, k ≤ x.val → exec (.ldMemVx x) s = .fault (.addressRange (s.I + BitVec.ofNat 16 k) s.pc)) ∧
    (∀ x, k ≤ x.val → exec (.ldVxMem x) s = .fault (.addressRange (s.I + BitVec.ofNat 16 k) s.pc))

/-- 60_exceptions.md R231 (D13, log entry 12): a step that ends in a fatal outcome leaves the session faulted, and from then on every
schedule without a reset changes nothing: each transaction is refused. -/
def Obligations.FaultedCoreRefusesUntilReset : Prop :=
  (∀ (S : Session) (f : Fault), Machine.step S.core = .fault f →
    (transact .step S).1 = .fault f ∧ (transact .step S).2.core.faulted = true) ∧
  (∀ (S : Session) (calls : List HostCall), S.core.faulted = true → (∀ free, HostCall.reset free ∉ calls) →
    runSchedule calls S = S ∧ ∀ c ∈ calls, (transact c S).1 = .refused .coreFaulted) ∧
  (∀ (S : Session) (free : State), (transact (.reset free) S).2.core.faulted = false)

/-! ### Display -/

/-- 41_display.md R120: 00E0 finishes, every cell is false, and nothing else but pc changes. The host's read of cell `64*row + col` is the pixel
at that row and column (10_state.md R55, 60_exceptions.md R246; held as rows, log entry 27). -/
def Obligations.ClearScreen : Prop :=
  (∀ s : State, ∃ t, exec .cls s = .next t ∧ (∀ k, t.cell k = false) ∧ t.pc = s.nextPc ∧
    ChangesOnly s t (fun p => p = .pc ∨ ∃ row col, p = .pixel row col)) ∧
  (∀ (s : State) (row : Fin 32) (col : Fin 64) (k : Fin 2048), k.val = 64 * row.val + col.val →
    s.cell k = s.fb.pixel row col)

/-- 41_display.md R121-R123 (the bit order is the spec's decision D16, log entry 20; the origin's order is D8, log entry 8; the addresses are
those of D3, log entry 5): Dxyn finishes, flips exactly the cells that a set sprite bit reaches, sets VF to 1 if one of those was set and
to 0 otherwise, and changes nothing else but pc. `I` is not changed; n = 0 reaches no cell. -/
def Obligations.DrawSprite : Prop :=
  ∀ (s : State) (x y : Reg) (n : Nibble) (ox oy : Byte), InRange s s.I n.toNat →
    (s.params.vfOrder = .flagLast → ox = s.reg x ∧ oy = s.reg y) →
    (s.params.vfOrder = .sequential → ox = (if x = VF then 0 else s.reg x) ∧ oy = (if y = VF then 0 else s.reg y)) →
    ∃ t, exec (.drwVxVyN x y n) s = .next t ∧
      (∀ row col, SpriteReaches s ox oy n row col → t.fb.pixel row col = !s.fb.pixel row col) ∧
      (∀ row col, ¬ SpriteReaches s ox oy n row col → t.fb.pixel row col = s.fb.pixel row col) ∧
      ((∃ row col, SpriteReaches s ox oy n row col ∧ s.fb.pixel row col = true) → t.reg VF = 1) ∧
      ((∀ row col, SpriteReaches s ox oy n row col → s.fb.pixel row col = false) → t.reg VF = 0) ∧
      t.pc = s.nextPc ∧ ChangesOnly s t (fun p => p = .pc ∨ p = .reg VF ∨ ∃ row col, p = .pixel row col)

/-- 41_display.md R123, 90_conflicts.md C6: drawing the same sprite twice at the same origin restores the framebuffer, and the second draw's VF
is 1 exactly if a sprite bit meets a cell that was clear at first. Which cell a bit meets is the bit order D16 (log entry 20), and the origin is
read in the order of `VF_ORDER` (D8, log entry 8). -/
def Obligations.DrawTwiceRestores : Prop :=
  ∀ (s t u : State) (x y : Reg) (n : Nibble), exec (.drwVxVyN x y n) s = .next t → exec (.drwVxVyN x y n) t = .next u →
    t.drawOrigin x y = s.drawOrigin x y →
    u.fb = s.fb ∧
    (u.reg VF = 1 ↔ ∃ row col, SpriteReaches s (s.drawOrigin x y).1 (s.drawOrigin x y).2 n row col ∧
      s.fb.pixel row col = false)

/-! ### Control flow -/

/-- 42_control_flow.md R140, R147: the jumps finish, with their targets as they are (odd or beyond 0xFFF), and change only pc. -/
def Obligations.JumpTargets : Prop :=
  ∀ (addr : Addr12) (s : State),
    (∃ t, exec (.jpAddr addr) s = .next t ∧ t.pc.toNat = addr.toNat ∧ ChangesOnly s t (fun p => p = .pc)) ∧
    (∃ t, exec (.jpV0Addr addr) s = .next t ∧ t.pc.toNat = addr.toNat + (s.reg 0).toNat ∧ ChangesOnly s t (fun p => p = .pc))

/-- 42_control_flow.md R142 and 30_encoding.md R101: below SP = 16 a call finishes: it writes the advanced pc to `stack[SP]`, increments SP and
goes to addr, and changes nothing else; at SP = 16 it is a StackOverflow with the fetch address. -/
def Obligations.CallPushesTheAdvancedPc : Prop :=
  ∀ (addr : Addr12) (s : State),
    (∀ k : Fin 16, k.val = s.SP.val → ∃ t, exec (.callAddr addr) s = .next t ∧
      t.stack[k] = (if s.wait = true then s.pc else s.pc + 2) ∧ t.SP.val = s.SP.val + 1 ∧ t.pc.toNat = addr.toNat ∧
      ChangesOnly s t (fun p => p = .pc ∨ p = .sp ∨ p = .slot k)) ∧
    (s.SP.val = 16 → exec (.callAddr addr) s = .fault (.stackOverflow s.pc))

/-- 42_control_flow.md R141 (the slot that keeps its value is D19): above SP = 0 a return finishes: it decrements SP and takes `stack[SP]` as pc,
and changes nothing else; at SP = 0 it is a StackUnderflow with the fetch address. -/
def Obligations.ReturnPopsIntoPc : Prop :=
  ∀ s : State,
    (∀ k : Fin 16, k.val + 1 = s.SP.val → ∃ t, exec .ret s = .next t ∧ t.pc = s.stack[k] ∧ t.SP.val = k.val ∧
      ChangesOnly s t (fun p => p = .pc ∨ p = .sp)) ∧
    (s.SP.val = 0 → exec .ret s = .fault (.stackUnderflow s.pc))

/-- 95_test_vectors.md S7 with 90_conflicts.md C5: a call, any instructions but calls and returns, and then a return resume at the address the
call's handler saw as pc, with SP as before the call. -/
def Obligations.ReturnUndoesCall : Prop :=
  ∀ (addr : Addr12) (s t u v : State) (body : List Instr), exec (.callAddr addr) s = .next t →
    (∀ i ∈ body, i ≠ .ret ∧ ∀ a, i ≠ .callAddr a) →
    body.foldlM (fun (m : State) i => match exec i m with | .next m' => some m' | _ => none) t = some u →
    exec .ret u = .next v →
    v.pc = s.nextPc ∧ v.SP = s.SP

/-- 42_control_flow.md R143-R146 and 43_alu.md R175: the skips on registers and immediates finish; pc moves 2 past the advanced pc if the
condition holds, and to it otherwise; nothing else changes. The field n of 5xyn and 9xyn does not matter (D6, log entry 6). -/
def Obligations.SkipsCompareAndAdvance : Prop :=
  ∀ (s : State) (x y : Reg) (kk : Byte) (n : Nibble),
    (∃ t, exec (.seVxKk x kk) s = .next t ∧ t.pc = (if s.reg x = kk then s.nextPc + 2 else s.nextPc) ∧
      ChangesOnly s t (fun p => p = .pc)) ∧
    (∃ t, exec (.sneVxKk x kk) s = .next t ∧ t.pc = (if s.reg x = kk then s.nextPc else s.nextPc + 2) ∧
      ChangesOnly s t (fun p => p = .pc)) ∧
    (∃ t, exec (.seVxVy x y n) s = .next t ∧ t.pc = (if s.reg x = s.reg y then s.nextPc + 2 else s.nextPc) ∧
      ChangesOnly s t (fun p => p = .pc)) ∧
    (∃ t, exec (.sneVxVy x y n) s = .next t ∧ t.pc = (if s.reg x = s.reg y then s.nextPc else s.nextPc + 2) ∧
      ChangesOnly s t (fun p => p = .pc))

/-! ### Register arithmetic -/

/-- 43_alu.md R161: the table of the alu_unit, in unsigned arithmetic. -/
def Obligations.AluTable : Prop :=
  ∀ a b rnd : Byte,
    (aluResult .ldi a b rnd = b ∧ aluFlag .ldi a b = none) ∧
    ((aluResult .addi a b rnd).toNat = (a.toNat + b.toNat) % 256 ∧ aluFlag .addi a b = none) ∧
    (aluResult .mov a b rnd = b ∧ aluFlag .mov a b = none) ∧
    ((∀ j, (aluResult .or a b rnd).getLsbD j = (a.getLsbD j || b.getLsbD j)) ∧ aluFlag .or a b = none) ∧
    ((∀ j, (aluResult .and a b rnd).getLsbD j = (a.getLsbD j && b.getLsbD j)) ∧ aluFlag .and a b = none) ∧
    ((∀ j, (aluResult .xor a b rnd).getLsbD j = (a.getLsbD j != b.getLsbD j)) ∧ aluFlag .xor a b = none) ∧
    ((aluResult .add a b rnd).toNat = (a.toNat + b.toNat) % 256 ∧ aluFlag .add a b = some (decide (255 < a.toNat + b.toNat))) ∧
    ((aluResult .sub a b rnd).toNat = (a.toNat + 256 - b.toNat) % 256 ∧ aluFlag .sub a b = some (decide (b.toNat < a.toNat))) ∧
    ((aluResult .shr a b rnd).toNat = a.toNat / 2 ∧ aluFlag .shr a b = some (decide (a.toNat % 2 = 1))) ∧
    ((aluResult .subn a b rnd).toNat = (b.toNat + 256 - a.toNat) % 256 ∧ aluFlag .subn a b = some (decide (a.toNat < b.toNat))) ∧
    ((aluResult .shl a b rnd).toNat = 2 * a.toNat % 256 ∧ aluFlag .shl a b = some (decide (128 ≤ a.toNat))) ∧
    ((∀ j, (aluResult .rnd a b rnd).getLsbD j = (rnd.getLsbD j && b.getLsbD j)) ∧ aluFlag .rnd a b = none)

/-- 43_alu.md R164-R169: the loads, the add of an immediate and the logic operations finish, write V[x] and nothing else but pc; VF changes only
as V[x] (D18), whatever `VF_ORDER` is. -/
def Obligations.LoadsAndLogicWriteOneRegister : Prop :=
  ∀ (s : State) (x y : Reg) (kk : Byte),
    (∃ t, exec (.ldVxKk x kk) s = .next t ∧ t.reg x = kk ∧ t.pc = s.nextPc ∧
      ChangesOnly s t (fun p => p = .pc ∨ p = .reg x)) ∧
    (∃ t, exec (.addVxKk x kk) s = .next t ∧ (t.reg x).toNat = ((s.reg x).toNat + kk.toNat) % 256 ∧ t.pc = s.nextPc ∧
      ChangesOnly s t (fun p => p = .pc ∨ p = .reg x)) ∧
    (∃ t, exec (.ldVxVy x y) s = .next t ∧ t.reg x = s.reg y ∧ t.pc = s.nextPc ∧
      ChangesOnly s t (fun p => p = .pc ∨ p = .reg x)) ∧
    (∃ t, exec (.orVxVy x y) s = .next t ∧ t.reg x = s.reg x ||| s.reg y ∧ t.pc = s.nextPc ∧
      ChangesOnly s t (fun p => p = .pc ∨ p = .reg x)) ∧
    (∃ t, exec (.andVxVy x y) s = .next t ∧ t.reg x = s.reg x &&& s.reg y ∧ t.pc = s.nextPc ∧
      ChangesOnly s t (fun p => p = .pc ∨ p = .reg x)) ∧
    (∃ t, exec (.xorVxVy x y) s = .next t ∧ t.reg x = s.reg x ^^^ s.reg y ∧ t.pc = s.nextPc ∧
      ChangesOnly s t (fun p => p = .pc ∨ p = .reg x))

/-- 43_alu.md R170: 8xy4 finishes under both settings of `VF_ORDER`: V[x] takes the truncated sum and then VF the carry, so that x = 0xF ends with
the carry; nothing else but pc changes. -/
def Obligations.AddRegistersSetsCarry : Prop :=
  ∀ (s : State) (x y : Reg), ∃ t, exec (.addVxVy x y) s = .next t ∧
    t.reg VF = (if 255 < (s.reg x).toNat + (s.reg y).toNat then 1 else 0) ∧
    (x ≠ VF → (t.reg x).toNat = ((s.reg x).toNat + (s.reg y).toNat) % 256) ∧
    t.pc = s.nextPc ∧ ChangesOnly s t (fun p => p = .pc ∨ p = .reg x ∨ p = .reg VF)

/-- 43_alu.md R171, R173 under `VF_ORDER = FLAG_LAST` (D8, log entry 8): the subtracts finish, VF ends 1 exactly if the minuend is strictly greater,
V[x] (if it is not VF) takes the difference, and nothing else but pc changes. -/
def Obligations.SubtractsFlagLast : Prop :=
  ∀ (s : State) (x y : Reg), s.params.vfOrder = .flagLast →
    (∃ t, exec (.subVxVy x y) s = .next t ∧ t.reg VF = (if (s.reg y).toNat < (s.reg x).toNat then 1 else 0) ∧
      (x ≠ VF → (t.reg x).toNat = ((s.reg x).toNat + 256 - (s.reg y).toNat) % 256) ∧
      t.pc = s.nextPc ∧ ChangesOnly s t (fun p => p = .pc ∨ p = .reg x ∨ p = .reg VF)) ∧
    (∃ t, exec (.subnVxVy x y) s = .next t ∧ t.reg VF = (if (s.reg x).toNat < (s.reg y).toNat then 1 else 0) ∧
      (x ≠ VF → (t.reg x).toNat = ((s.reg y).toNat + 256 - (s.reg x).toNat) % 256) ∧
      t.pc = s.nextPc ∧ ChangesOnly s t (fun p => p = .pc ∨ p = .reg x ∨ p = .reg VF))

/-- 43_alu.md R172, R174 under `VF_ORDER = FLAG_LAST` (D8, log entry 8): the shifts finish, VF ends as the bit shifted out, V[x] (if it is not VF)
takes the shifted value, and V[y] does not matter. -/
def Obligations.ShiftsFlagLast : Prop :=
  ∀ (s : State) (x y : Reg), s.params.vfOrder = .flagLast →
    (∃ t, exec (.shrVx x y) s = .next t ∧ t.reg VF = (if (s.reg x).toNat % 2 = 1 then 1 else 0) ∧
      (x ≠ VF → (t.reg x).toNat = (s.reg x).toNat / 2) ∧
      t.pc = s.nextPc ∧ ChangesOnly s t (fun p => p = .pc ∨ p = .reg x ∨ p = .reg VF)) ∧
    (∃ t, exec (.shlVx x y) s = .next t ∧ t.reg VF = (if 128 ≤ (s.reg x).toNat then 1 else 0) ∧
      (x ≠ VF → (t.reg x).toNat = 2 * (s.reg x).toNat % 256) ∧
      t.pc = s.nextPc ∧ ChangesOnly s t (fun p => p = .pc ∨ p = .reg x ∨ p = .reg VF))

/-- 43_alu.md R163 under `VF_ORDER = SEQUENTIAL` (D8, log entry 8): the subtracts and the shifts finish; VF is written first, and V[x] is then
computed from the registers as they stand, in which VF holds the flag. -/
def Obligations.SequentialOrderReadsTheFlag : Prop :=
  ∀ (s : State) (x y : Reg), s.params.vfOrder = .sequential →
    (∀ flag : Byte, flag = (if (s.reg y).toNat < (s.reg x).toNat then 1 else 0) →
      ∃ t, exec (.subVxVy x y) s = .next t ∧
        t.reg x = (if x = VF then flag else s.reg x) - (if y = VF then flag else s.reg y) ∧ (x ≠ VF → t.reg VF = flag) ∧
        t.pc = s.nextPc ∧ ChangesOnly s t (fun p => p = .pc ∨ p = .reg x ∨ p = .reg VF)) ∧
    (∀ flag : Byte, flag = (if (s.reg x).toNat < (s.reg y).toNat then 1 else 0) →
      ∃ t, exec (.subnVxVy x y) s = .next t ∧
        t.reg x = (if y = VF then flag else s.reg y) - (if x = VF then flag else s.reg x) ∧ (x ≠ VF → t.reg VF = flag) ∧
        t.pc = s.nextPc ∧ ChangesOnly s t (fun p => p = .pc ∨ p = .reg x ∨ p = .reg VF)) ∧
    (∀ flag : Byte, flag = (if (s.reg x).toNat % 2 = 1 then 1 else 0) →
      ∃ t, exec (.shrVx x y) s = .next t ∧
        (t.reg x).toNat = (if x = VF then flag else s.reg x).toNat / 2 ∧ (x ≠ VF → t.reg VF = flag) ∧
        t.pc = s.nextPc ∧ ChangesOnly s t (fun p => p = .pc ∨ p = .reg x ∨ p = .reg VF)) ∧
    (∀ flag : Byte, flag = (if 128 ≤ (s.reg x).toNat then 1 else 0) →
      ∃ t, exec (.shlVx x y) s = .next t ∧
        (t.reg x).toNat = 2 * (if x = VF then flag else s.reg x).toNat % 256 ∧ (x ≠ VF → t.reg VF = flag) ∧
        t.pc = s.nextPc ∧ ChangesOnly s t (fun p => p = .pc ∨ p = .reg x ∨ p = .reg VF))

/-- 43_alu.md R163 (the parameter is D8, log entry 8): `VF_ORDER` decides a result only for 8xy5, 8xy7 and Dxyn with x or y = 0xF and for 8xy6 and
8xyE with x = 0xF, and not for 8xy5 and 8xy7 with x = y = 0xF. Every other instruction, in every form, answers the same under both settings. -/
def Obligations.VfOrdersAgree : Prop :=
  ∀ (i : Instr) (s : State),
    (match i with
      | .subVxVy x y | .subnVxVy x y => (x ≠ VF ∧ y ≠ VF) ∨ (x = VF ∧ y = VF)
      | .shrVx x _ | .shlVx x _ => x ≠ VF
      | .drwVxVyN x y _ => x ≠ VF ∧ y ≠ VF
      | _ => True) →
    let seq : State := { s with params := { s.params with vfOrder := .sequential } }
    let last : State := { s with params := { s.params with vfOrder := .flagLast } }
    exec i seq = mapNext (fun t => { t with params := seq.params }) (exec i last)

/-- 43_alu.md R176 (D17, log entry 2): Cxkk finishes, V[x] is the drawn byte masked with kk, exactly one byte is drawn, whatever kk is, and
nothing else but pc changes. The drawn byte is the model's free value: nothing here rests on its value. -/
def Obligations.RandomByteIsMasked : Prop :=
  ∀ (s : State) (x : Reg) (kk : Byte),
    (∃ t, exec (.rndVxKk x kk) s = .next t ∧ t.reg x = Config.randomByte s.draws &&& kk ∧ t.draws = s.draws + 1 ∧
      t.pc = s.nextPc ∧ ChangesOnly s t (fun p => p = .pc ∨ p = .reg x ∨ p = .draws)) ∧
    (∀ rnd : Byte, (rndWith rnd x 0 s).reg x = 0 ∧ (rndWith rnd x 0xFF s).reg x = rnd)

/-! ### Index register and memory -/

/-- 44_index_memory.md R191-R193: the instructions that write I finish: zero-extension, a sum that wraps at 16 bits, and five times V[x], which is
not masked; no flag (D18), and nothing else but pc changes. -/
def Obligations.IndexRegisterLoads : Prop :=
  ∀ (s : State) (x : Reg) (addr : Addr12),
    (∃ t, exec (.ldIAddr addr) s = .next t ∧ t.I.toNat = addr.toNat ∧ t.pc = s.nextPc ∧
      ChangesOnly s t (fun p => p = .pc ∨ p = .index)) ∧
    (∃ t, exec (.addIVx x) s = .next t ∧ t.I.toNat = (s.I.toNat + (s.reg x).toNat) % 65536 ∧ t.pc = s.nextPc ∧
      ChangesOnly s t (fun p => p = .pc ∨ p = .index)) ∧
    (∃ t, exec (.ldFVx x) s = .next t ∧ t.I.toNat = 5 * (s.reg x).toNat ∧ t.pc = s.nextPc ∧
      ChangesOnly s t (fun p => p = .pc ∨ p = .index))

/-- 44_index_memory.md R194: Fx33 finishes where its three addresses are in range, and the bytes at I, I +16 1 and I +16 2 are the decimal digits
of V[x]; every other byte, and all else but pc, is unchanged. -/
def Obligations.StoreBcdDigits : Prop :=
  ∀ (s : State) (x : Reg), InRange s s.I 3 →
    ∃ t, exec (.ldBVx x) s = .next t ∧
      100 * (t.peek s.I).toNat + 10 * (t.peek (s.I + 1)).toNat + (t.peek (s.I + 2)).toNat = (s.reg x).toNat ∧
      (t.peek s.I).toNat ≤ 2 ∧ (t.peek (s.I + 1)).toNat ≤ 9 ∧ (t.peek (s.I + 2)).toNat ≤ 9 ∧
      t.pc = s.nextPc ∧ ChangesOnly s t (fun p => p = .pc ∨ atI s 3 p)

/-- 44_index_memory.md R195: Fx55 finishes where its addresses are in range, and the byte at I +16 r is V[r] for each r up to x; every other byte,
and all else but pc, is unchanged (I too). -/
def Obligations.StoreRegistersFromIndex : Prop :=
  ∀ (s : State) (x : Reg), InRange s s.I (x.val + 1) →
    ∃ t, exec (.ldMemVx x) s = .next t ∧ (∀ r : Reg, r ≤ x → t.peek (s.I + BitVec.ofNat 16 r.val) = s.reg r) ∧
      t.pc = s.nextPc ∧ ChangesOnly s t (fun p => p = .pc ∨ atI s (x.val + 1) p)

/-- 44_index_memory.md R196: Fx65 finishes where its addresses are in range, and V[r] is the byte at I +16 r for each r up to x; registers above x,
memory, and all else but pc are unchanged (I too). -/
def Obligations.LoadRegistersFromIndex : Prop :=
  ∀ (s : State) (x : Reg), InRange s s.I (x.val + 1) →
    ∃ t, exec (.ldVxMem x) s = .next t ∧ (∀ r : Reg, r ≤ x → t.reg r = s.peek (s.I + BitVec.ofNat 16 r.val)) ∧
      t.pc = s.nextPc ∧ ChangesOnly s t (fun p => p = .pc ∨ ∃ r, p = .reg r ∧ r ≤ x)

/-- 95_test_vectors.md S4, 44_index_memory.md R196: a store of registers 0..x, then anything that leaves I and the stored bytes as the store left
them, and then a load for the same x restores registers 0..x to their values before the store. -/
def Obligations.StoreLoadRoundTrip : Prop :=
  ∀ (s t u v : State) (x : Reg), exec (.ldMemVx x) s = .next t → u.I = t.I →
    (∀ r : Reg, r ≤ x → u.peek (t.I + BitVec.ofNat 16 r.val) = t.peek (t.I + BitVec.ofNat 16 r.val)) →
    exec (.ldVxMem x) u = .next v → ∀ r : Reg, r ≤ x → v.reg r = s.reg r

/-! ### Keys and timers -/

/-- 45_keys_timers.md R211, R212, R217 (D9, log entry 9): the key skips finish where the key index is admitted, and test key `V[x] mod 16`, which is
key V[x] below 16; only pc changes. -/
def Obligations.KeySkipsTestTheKey : Prop :=
  ∀ (s : State) (x k : Reg), (s.params.keyOob = .wrap ∨ (s.reg x).toNat < 16) → k.val = (s.reg x).toNat % 16 →
    (∃ t, exec (.skpVx x) s = .next t ∧ t.pc = (if s.key k = true then s.nextPc + 2 else s.nextPc) ∧
      ChangesOnly s t (fun p => p = .pc)) ∧
    (∃ t, exec (.sknpVx x) s = .next t ∧ t.pc = (if s.key k = true then s.nextPc else s.nextPc + 2) ∧
      ChangesOnly s t (fun p => p = .pc))

/-- 45_keys_timers.md R217 and 60_exceptions.md R232 (D9, log entry 9), under `KEY_OOB = FAULT`: a value of 16 or above raises KeyRange with the value
and the fetch address. -/
def Obligations.KeyRangeStops : Prop :=
  ∀ (s : State) (x : Reg), s.params.keyOob = .fault → 16 ≤ (s.reg x).toNat →
    exec (.skpVx x) s = .fault (.keyRange (s.reg x) s.pc) ∧ exec (.sknpVx x) s = .fault (.keyRange (s.reg x) s.pc)

/-- 45_keys_timers.md R213, R215, R216: the timer register instructions finish, and write their one destination and pc. -/
def Obligations.TimerRegisters : Prop :=
  ∀ (s : State) (x : Reg),
    (∃ t, exec (.ldVxDt x) s = .next t ∧ t.reg x = s.DT ∧ t.pc = s.nextPc ∧
      ChangesOnly s t (fun p => p = .pc ∨ p = .reg x)) ∧
    (∃ t, exec (.ldDtVx x) s = .next t ∧ t.DT = s.reg x ∧ t.pc = s.nextPc ∧
      ChangesOnly s t (fun p => p = .pc ∨ p = .delay)) ∧
    (∃ t, exec (.ldStVx x) s = .next t ∧ t.ST = s.reg x ∧ t.pc = s.nextPc ∧
      ChangesOnly s t (fun p => p = .pc ∨ p = .sound))

/-- 45_keys_timers.md R214: with a key held, Fx0A finishes, the highest pressed index goes to V[x], and the input-wait flag is clear; pc is the
fetch address + 2 under REFETCH and what the gate of R100 gives under LITERAL (D7, log entry 7); nothing else changes. -/
def Obligations.WaitForKeyTakesTheHighest : Prop :=
  ∀ (s : State) (x k : Reg), s.key k = true → (∀ j, k < j → s.key j = false) →
    ∃ t, exec (.ldVxK x) s = .next t ∧ (t.reg x).toNat = k.val ∧ t.wait = false ∧
      (s.params.waitPc = .refetch → t.pc = s.pc + 2) ∧ (s.params.waitPc = .literal → t.pc = s.nextPc) ∧
      ChangesOnly s t (fun p => p = .pc ∨ p = .wait ∨ p = .reg x)

/-- 45_keys_timers.md R214: with no key held, Fx0A finishes with the input-wait flag set, V[x] as it was, and pc at this instruction again under
REFETCH (D7, log entry 7); under LITERAL pc is what the gate of R100 gives. Under REFETCH the next step runs it again. -/
def Obligations.WaitForKeyBlocks : Prop :=
  ∀ (s : State) (x : Reg), (∀ j, s.key j = false) →
    ∃ t, exec (.ldVxK x) s = .next t ∧ t.wait = true ∧
      (s.params.waitPc = .refetch → t.pc = s.pc ∧ (s.faulted = false → fetchInstr s = .ok (.ldVxK x) → step t = .next t)) ∧
      (s.params.waitPc = .literal → t.pc = s.nextPc) ∧
      ChangesOnly s t (fun p => p = .pc ∨ p = .wait)

/-! ### Host transactions -/

/-- 60_exceptions.md R240: `tick_timers` decrements each timer if it is not zero, and changes nothing else; a faulted CORE has no transition. -/
def Obligations.TimerTick : Prop :=
  ∀ S : Session,
    (S.core.faulted = false → ∃ t, transact .tickTimers S = (.ok, { S with core := t }) ∧
      (S.core.DT = 0 → t.DT = 0) ∧ (S.core.DT ≠ 0 → t.DT.toNat + 1 = S.core.DT.toNat) ∧
      (S.core.ST = 0 → t.ST = 0) ∧ (S.core.ST ≠ 0 → t.ST.toNat + 1 = S.core.ST.toNat) ∧
      ChangesOnly S.core t (fun p => p = .delay ∨ p = .sound)) ∧
    (S.core.faulted = true → (transact .tickTimers S).2 = S)

/-- 45_keys_timers.md R210: `set_keys` sets `keys[i]` to `k[i]` for each i, and changes nothing else; an instruction sees the snapshot of the last
`set_keys`, since no other transaction but a reset changes it (after a fatal outcome nothing is known). -/
def Obligations.KeySnapshot : Prop :=
  (∀ (S : Session) (k : Vector Bool 16), S.core.faulted = false →
    ∃ t, transact (.setKeys k) S = (.ok, { S with core := t }) ∧ (∀ i, t.key i = k[i]) ∧
      ChangesOnly S.core t (fun p => ∃ i, p = .key i)) ∧
  (∀ (c : HostCall) (S : Session), (∀ k, c ≠ .setKeys k) → (∀ free, c ≠ .reset free) → (∀ f, (transact c S).1 ≠ .fault f) →
    ∀ i, (transact c S).2.core.key i = S.core.key i)

/-- 20_memory.md R84 (D22, log entry 17): `load` of at most 3584 bytes at 0x200, after reset and before the first step, puts byte j at 0x200 + j and
changes no other byte; any other load is refused and changes nothing. The time for loading (`booting`, the model's field) begins with a
reset, ends with a step that is not refused, and no other transaction changes it (70_reset_and_hazards.md R261). -/
def Obligations.LoadPlacesTheImage : Prop :=
  (∀ (S : Session) (image : List Byte), S.core.faulted = false → S.booting = true → image.length ≤ 3584 →
    ∃ t, transact (.load image 0x200) S = (.ok, { S with core := t }) ∧
      (∀ (j : Nat) (hj : j < image.length), t.mem.read (0x200 + j) = image[j]) ∧
      ChangesOnly S.core t (fun p => ∃ a, p = .byte a ∧ 0x200 ≤ phys a ∧ phys a < 0x200 + image.length)) ∧
  (∀ (S : Session) (image : List Byte) (base : Word),
    (base ≠ 0x200 ∨ 3584 < image.length ∨ S.booting = false ∨ S.core.faulted = true) →
    ∃ r, transact (.load image base) S = (.refused r, S)) ∧
  (∀ S : Session, S.core.faulted = false → (transact .step S).2.booting = false) ∧
  (∀ (S : Session) (free : State), (transact (.reset free) S).2.booting = true) ∧
  (∀ (c : HostCall) (S : Session), c ≠ .step → (∀ free, c ≠ .reset free) → (transact c S).2.booting = S.booting)

/-- 70_reset_and_hazards.md R271 (D25): in a quiescent state (pc holds a jump to its own address, the input-wait flag is clear), a step changes nothing. -/
def Obligations.SelfJumpIsQuiescent : Prop :=
  ∀ (s : State) (addr : Addr12), s.faulted = false → s.wait = false → s.pc = addr.setWidth 16 →
    fetchInstr s = .ok (.jpAddr addr) → step s = .next s

/-! ### Invariants -/

/-- The invariant `Inv`, from every state that meets it: memory keeps its canonical form (log entry 22), and while the input-wait flag is set under
REFETCH, pc holds the blocking Fx0A (45_keys_timers.md R214). -/
def Obligations.StepKeepsTheInvariant : Prop := ∀ s t : State, Inv s → step s = .next t → Inv t

/-- The invariant of a session under every host schedule, finite or infinite (70_reset_and_hazards.md R270), with `RESET_FREE = false`: a reset under
`RESET_FREE = true` may leave any state (log entry 24). The model's choices it rests on: the canonical form of memory (log entry 22), the time
for loading as a field of the session (log entry 17), and that nothing is claimed of the state after a fatal outcome (D13, log entry 12). -/
def Obligations.EveryScheduleKeepsTheInvariant : Prop :=
  (∀ (calls : List HostCall) (S : Session), S.resetParams.resetFree = false → S.Inv → (runSchedule calls S).Inv) ∧
  (∀ (calls : Schedule) (S : Session) (n : Nat), S.resetParams.resetFree = false → S.Inv → (sessionAt calls S n).Inv)

/-- 70_reset_and_hazards.md R270: an infinite schedule is run transaction by transaction: before transaction `n` the session is that after the finite
schedule of the first `n` transactions, and each answer is the answer of its transaction there. -/
def Obligations.InfiniteScheduleIsItsPrefixes : Prop :=
  ∀ (calls : Schedule) (S : Session) (n : Nat),
    sessionAt calls S n = runSchedule ((List.range n).map calls) S ∧
    replyAt calls S n = (transact (calls n) (runSchedule ((List.range n).map calls) S)).1
end

