-- ==== Sys2Proof/Laws/Decode.lean ====
section
/-! SUPPORT. Fields and words as numbers, so that omega decides every fact about them: the fields of an assembled word, and a
word assembled from its fields. -/

namespace Sys2Proof

theorem toNat_append_eq {m n : Nat} (a : BitVec m) (b : BitVec n) : (a ++ b).toNat = a.toNat * 2 ^ n + b.toNat := by
  rw [BitVec.toNat_append, ← Nat.shiftLeft_add_eq_or_of_lt b.isLt, Nat.shiftLeft_eq]

section Numbers
variable (w : Word) (fam n : Nibble) (x y : Reg) (kk : Byte) (addr : Addr12)

theorem toNat_famOf : (famOf w).toNat = w.toNat / 4096 := by
  have := w.isLt
  simp only [famOf, BitVec.extractLsb'_toNat, Nat.shiftRight_eq_div_pow]
  omega

theorem val_xOf : (xOf w).val = w.toNat / 256 % 16 := by
  show (w.extractLsb' 8 4).toNat = _
  simp only [BitVec.extractLsb'_toNat, Nat.shiftRight_eq_div_pow]

theorem val_yOf : (yOf w).val = w.toNat / 16 % 16 := by
  show (w.extractLsb' 4 4).toNat = _
  simp only [BitVec.extractLsb'_toNat, Nat.shiftRight_eq_div_pow]

theorem toNat_nOf : (nOf w).toNat = w.toNat % 16 := by
  simp [nOf, BitVec.extractLsb'_toNat]

theorem toNat_kkOf : (kkOf w).toNat = w.toNat % 256 := by
  simp [kkOf, BitVec.extractLsb'_toNat]

theorem toNat_addrOf : (addrOf w).toNat = w.toNat % 4096 := by
  simp [addrOf, BitVec.extractLsb'_toNat]

theorem toNat_hiByte : (hiByte w).toNat = w.toNat / 256 := by
  have := w.isLt
  simp only [hiByte, BitVec.extractLsb'_toNat, Nat.shiftRight_eq_div_pow]
  omega

theorem toNat_loByte : (loByte w).toNat = w.toNat % 256 := by
  simp [loByte, BitVec.extractLsb'_toNat]

theorem toNat_wordOfBytes (hi lo : Byte) : (wordOfBytes hi lo).toNat = 256 * hi.toNat + lo.toNat := by
  rw [wordOfBytes, toNat_append_eq]; omega

theorem toNat_wordXYN : (wordXYN fam x y n).toNat = 4096 * fam.toNat + 256 * x.val + 16 * y.val + n.toNat := by
  simp only [wordXYN, toNat_append_eq, BitVec.toNat_ofFin]; omega

theorem toNat_wordXKk : (wordXKk fam x kk).toNat = 4096 * fam.toNat + 256 * x.val + kk.toNat := by
  simp only [wordXKk, toNat_append_eq, BitVec.toNat_ofFin]; omega

theorem toNat_wordAddr : (wordAddr fam addr).toNat = 4096 * fam.toNat + addr.toNat := by
  simp only [wordAddr, toNat_append_eq]; omega

end Numbers

section Fields
variable (w : Word) (fam n : Nibble) (x y : Reg) (kk : Byte) (addr : Addr12)

@[simp] theorem famOf_wordXYN : famOf (wordXYN fam x y n) = fam := by
  apply BitVec.eq_of_toNat_eq; rw [toNat_famOf, toNat_wordXYN]; omega

@[simp] theorem xOf_wordXYN : xOf (wordXYN fam x y n) = x := by
  apply Fin.ext; rw [val_xOf, toNat_wordXYN]; omega

@[simp] theorem yOf_wordXYN : yOf (wordXYN fam x y n) = y := by
  apply Fin.ext; rw [val_yOf, toNat_wordXYN]; omega

@[simp] theorem nOf_wordXYN : nOf (wordXYN fam x y n) = n := by
  apply BitVec.eq_of_toNat_eq; rw [toNat_nOf, toNat_wordXYN]; omega

@[simp] theorem famOf_wordXKk : famOf (wordXKk fam x kk) = fam := by
  apply BitVec.eq_of_toNat_eq; rw [toNat_famOf, toNat_wordXKk]; omega

@[simp] theorem xOf_wordXKk : xOf (wordXKk fam x kk) = x := by
  apply Fin.ext; rw [val_xOf, toNat_wordXKk]; omega

@[simp] theorem kkOf_wordXKk : kkOf (wordXKk fam x kk) = kk := by
  apply BitVec.eq_of_toNat_eq; rw [toNat_kkOf, toNat_wordXKk]; omega

@[simp] theorem famOf_wordAddr : famOf (wordAddr fam addr) = fam := by
  apply BitVec.eq_of_toNat_eq; rw [toNat_famOf, toNat_wordAddr]; omega

@[simp] theorem addrOf_wordAddr : addrOf (wordAddr fam addr) = addr := by
  apply BitVec.eq_of_toNat_eq; rw [toNat_addrOf, toNat_wordAddr]; omega

/-- A word is its four nibbles. -/
theorem wordXYN_fields : wordXYN (famOf w) (xOf w) (yOf w) (nOf w) = w := by
  apply BitVec.eq_of_toNat_eq
  rw [toNat_wordXYN, toNat_famOf, val_xOf, val_yOf, toNat_nOf]; omega

theorem wordXKk_fields : wordXKk (famOf w) (xOf w) (kkOf w) = w := by
  apply BitVec.eq_of_toNat_eq
  rw [toNat_wordXKk, toNat_famOf, val_xOf, toNat_kkOf]; omega

theorem wordAddr_fields : wordAddr (famOf w) (addrOf w) = w := by
  apply BitVec.eq_of_toNat_eq
  rw [toNat_wordAddr, toNat_famOf, toNat_addrOf]; omega

/-- A word is its two bytes, the high byte first. -/
@[simp] theorem wordOfBytes_bytes : wordOfBytes (hiByte w) (loByte w) = w := by
  apply BitVec.eq_of_toNat_eq
  rw [toNat_wordOfBytes, toNat_hiByte, toNat_loByte]; omega

end Fields

section SubDispatch

/-- Family 0 (R104): the word itself is the instruction's. -/
theorem decodeFamily0_ok {w : Word} {i : Instr} (h : decodeFamily0 w = .ok i) :
    encode i = w ∧ ∀ strict, i.wellFormed strict = true := by
  unfold decodeFamily0 at h
  repeat' split at h
  all_goals cases h
  all_goals simp_all [encode, Instr.wellFormed]

/-- Family 8 (R105): the word with these fields is the instruction's. -/
theorem decodeFamily8_ok {x y : Reg} {n : Nibble} {i : Instr} (h : decodeFamily8 x y n = .ok i) :
    encode i = wordXYN 0x8 x y n ∧ ∀ strict, i.wellFormed strict = true := by
  unfold decodeFamily8 at h
  repeat' split at h
  all_goals cases h
  all_goals simp_all [encode, Instr.wellFormed]

/-- Family E (R106). -/
theorem decodeFamilyE_ok {x : Reg} {kk : Byte} {i : Instr} (h : decodeFamilyE x kk = .ok i) :
    encode i = wordXKk 0xE x kk ∧ ∀ strict, i.wellFormed strict = true := by
  unfold decodeFamilyE at h
  repeat' split at h
  all_goals cases h
  all_goals simp_all [encode, Instr.wellFormed]

/-- Family F (R107). -/
theorem decodeFamilyF_ok {x : Reg} {kk : Byte} {i : Instr} (h : decodeFamilyF x kk = .ok i) :
    encode i = wordXKk 0xF x kk ∧ ∀ strict, i.wellFormed strict = true := by
  unfold decodeFamilyF at h
  repeat' split at h
  all_goals cases h
  all_goals simp_all [encode, Instr.wellFormed]

/-- Families 5 and 9 (R108). -/
theorem decodeLowNibble_ok {strict : Bool} {n : Nibble} {j i : Instr} (h : decodeLowNibble strict n j = .ok i) :
    i = j ∧ nibbleAllowed strict n = true := by
  unfold decodeLowNibble at h
  split at h
  · cases h; exact ⟨rfl, ‹_›⟩
  · cases h

/-- The sixteen families (R102). -/
theorem nibble_cases (f : Nibble) : f = 0x0 ∨ f = 0x1 ∨ f = 0x2 ∨ f = 0x3 ∨ f = 0x4 ∨ f = 0x5 ∨ f = 0x6 ∨ f = 0x7 ∨ f = 0x8 ∨
    f = 0x9 ∨ f = 0xA ∨ f = 0xB ∨ f = 0xC ∨ f = 0xD ∨ f = 0xE ∨ f = 0xF := by
  revert f; decide

variable (strict : Bool) {w : Word}

theorem decode_fam0 (h : famOf w = 0x0) : decode strict w = decodeFamily0 w := by simp [decode, h]
theorem decode_fam1 (h : famOf w = 0x1) : decode strict w = .ok (.jpAddr (addrOf w)) := by simp [decode, h]
theorem decode_fam2 (h : famOf w = 0x2) : decode strict w = .ok (.callAddr (addrOf w)) := by simp [decode, h]
theorem decode_fam3 (h : famOf w = 0x3) : decode strict w = .ok (.seVxKk (xOf w) (kkOf w)) := by simp [decode, h]
theorem decode_fam4 (h : famOf w = 0x4) : decode strict w = .ok (.sneVxKk (xOf w) (kkOf w)) := by simp [decode, h]
theorem decode_fam5 (h : famOf w = 0x5) : decode strict w = decodeLowNibble strict (nOf w) (.seVxVy (xOf w) (yOf w) (nOf w)) := by simp [decode, h]
theorem decode_fam6 (h : famOf w = 0x6) : decode strict w = .ok (.ldVxKk (xOf w) (kkOf w)) := by simp [decode, h]
theorem decode_fam7 (h : famOf w = 0x7) : decode strict w = .ok (.addVxKk (xOf w) (kkOf w)) := by simp [decode, h]
theorem decode_fam8 (h : famOf w = 0x8) : decode strict w = decodeFamily8 (xOf w) (yOf w) (nOf w) := by simp [decode, h]
theorem decode_fam9 (h : famOf w = 0x9) : decode strict w = decodeLowNibble strict (nOf w) (.sneVxVy (xOf w) (yOf w) (nOf w)) := by simp [decode, h]
theorem decode_famA (h : famOf w = 0xA) : decode strict w = .ok (.ldIAddr (addrOf w)) := by simp [decode, h]
theorem decode_famB (h : famOf w = 0xB) : decode strict w = .ok (.jpV0Addr (addrOf w)) := by simp [decode, h]
theorem decode_famC (h : famOf w = 0xC) : decode strict w = .ok (.rndVxKk (xOf w) (kkOf w)) := by simp [decode, h]
theorem decode_famD (h : famOf w = 0xD) : decode strict w = .ok (.drwVxVyN (xOf w) (yOf w) (nOf w)) := by simp [decode, h]
theorem decode_famE (h : famOf w = 0xE) : decode strict w = decodeFamilyE (xOf w) (kkOf w) := by simp [decode, h]
theorem decode_famF (h : famOf w = 0xF) : decode strict w = decodeFamilyF (xOf w) (kkOf w) := by simp [decode, h]

end SubDispatch

end Sys2Proof
end

