-- ==== Sys2Proof/Laws/Memory.lean ====
section
/-! SUPPORT. The laws of the memory list: read after write, the canonical form is kept, and memories in canonical form are equal
when they read the same. -/

namespace Sys2Proof.Machine

theorem read_without_self (m : Mem) (k : Nat) : (m.without k).read k = unlistedByte k := by
  induction m with
  | nil => rfl
  | cons c rest ih =>
    obtain ⟨a, b⟩ := c
    by_cases h : a = k <;> simp_all [Mem.without, Mem.read]

theorem read_without_ne (m : Mem) {k j : Nat} (h : j ≠ k) : (m.without k).read j = m.read j := by
  induction m with
  | nil => rfl
  | cons c rest ih =>
    obtain ⟨a, b⟩ := c
    by_cases ha : a = k
    · subst ha
      have : a ≠ j := fun e => h e.symm
      simp_all [Mem.without, Mem.read]
    · simp_all [Mem.without, Mem.read]

theorem read_enter_ne (m : Mem) {k j : Nat} (v : Byte) (h : j ≠ k) : (m.enter k v).read j = m.read j := by
  have hk : k ≠ j := fun e => h e.symm
  induction m with
  | nil => simp [Mem.enter, Mem.read, hk]
  | cons c rest ih =>
    obtain ⟨a, b⟩ := c
    simp only [Mem.enter]
    split <;> simp [Mem.read, hk, ih]

theorem read_enter_self (m : Mem) (k : Nat) (v : Byte) (h : ∀ c ∈ m, c.1 ≠ k) : (m.enter k v).read k = v := by
  induction m with
  | nil => simp [Mem.enter, Mem.read]
  | cons c rest ih =>
    obtain ⟨a, b⟩ := c
    have ha : a ≠ k := h (a, b) (by simp)
    simp only [Mem.enter]
    split
    · simp [Mem.read]
    · simpa [Mem.read, ha] using ih fun c hc => h c (by simp [hc])

theorem mem_without_ne (m : Mem) (k : Nat) : ∀ c ∈ m.without k, c.1 ≠ k := by
  intro c hc
  simpa using (List.mem_filter.mp hc).2

/-- The byte written is the byte read. -/
@[simp] theorem read_write_self (m : Mem) (k : Nat) (v : Byte) : (m.write k v).read k = v := by
  unfold Mem.write
  split
  · rw [read_without_self]; simp_all
  · exact read_enter_self _ _ _ (mem_without_ne m k)

/-- A write leaves every other byte alone. -/
theorem read_write_ne (m : Mem) {k j : Nat} (v : Byte) (h : j ≠ k) : (m.write k v).read j = m.read j := by
  unfold Mem.write
  split
  · exact read_without_ne m h
  · rw [read_enter_ne _ _ h, read_without_ne m h]

theorem read_write (m : Mem) (k j : Nat) (v : Byte) : (m.write k v).read j = if j = k then v else m.read j := by
  split
  · subst j; simp
  · exact read_write_ne m v ‹_›

theorem wfFrom_mono {m : Mem} {lo hi : Nat} (h : m.wfFrom hi = true) (hle : lo ≤ hi) : m.wfFrom lo = true := by
  cases m with
  | nil => rfl
  | cons c rest =>
    obtain ⟨a, b⟩ := c
    simp only [Mem.wfFrom, Bool.and_eq_true, decide_eq_true_eq] at h ⊢
    exact ⟨⟨⟨by omega, h.1.1.2⟩, h.1.2⟩, h.2⟩

theorem wfFrom_without {m : Mem} {lo : Nat} (k : Nat) (h : m.wfFrom lo = true) : (m.without k).wfFrom lo = true := by
  induction m generalizing lo with
  | nil => rfl
  | cons c rest ih =>
    obtain ⟨a, b⟩ := c
    simp only [Mem.wfFrom, Bool.and_eq_true, decide_eq_true_eq] at h
    by_cases ha : a = k
    · have : Mem.without ((a, b) :: rest) k = Mem.without rest k := by simp [Mem.without, ha]
      rw [this]
      exact wfFrom_mono (ih h.2) (by omega)
    · have : Mem.without ((a, b) :: rest) k = (a, b) :: Mem.without rest k := by simp [Mem.without, ha]
      rw [this]
      simp only [Mem.wfFrom, Bool.and_eq_true, decide_eq_true_eq]
      exact ⟨h.1, ih h.2⟩

theorem wfFrom_enter {m : Mem} {lo k : Nat} {v : Byte} (h : m.wfFrom lo = true) (hlo : lo ≤ k) (hk : k < Config.memSize)
    (hv : v ≠ unlistedByte k) (hne : ∀ c ∈ m, c.1 ≠ k) : (m.enter k v).wfFrom lo = true := by
  induction m generalizing lo with
  | nil => simp [Mem.enter, Mem.wfFrom, hlo, hv, hk]
  | cons c rest ih =>
    obtain ⟨a, b⟩ := c
    have ha : a ≠ k := hne (a, b) (by simp)
    simp only [Mem.wfFrom, Bool.and_eq_true, decide_eq_true_eq, bne_iff_ne] at h
    simp only [Mem.enter]
    split
    · simp only [Mem.wfFrom, Bool.and_eq_true, decide_eq_true_eq, bne_iff_ne]
      exact ⟨⟨⟨hlo, hk⟩, hv⟩, ⟨⟨by omega, h.1.1.2⟩, h.1.2⟩, h.2⟩
    · simp only [Mem.wfFrom, Bool.and_eq_true, decide_eq_true_eq, bne_iff_ne]
      exact ⟨h.1, ih h.2 (by omega) fun c hc => hne c (by simp [hc])⟩

/-- A write keeps the canonical form. -/
theorem wf_write {m : Mem} {k : Nat} (v : Byte) (h : m.wf = true) (hk : k < Config.memSize) : (m.write k v).wf = true := by
  unfold Mem.wf Mem.write at *
  split
  · exact wfFrom_without k h
  · exact wfFrom_enter (wfFrom_without k h) (by omega) hk ‹_› (mem_without_ne m k)

theorem phys_lt (a : Word) : phys a < Config.memSize := Nat.mod_lt _ (by decide)

/-- Storing bytes keeps the canonical form. -/
theorem wf_writeBytes {m : Mem} (base : Word) (bs : List Byte) (h : m.wf = true) : (m.writeBytes base bs).wf = true := by
  induction bs generalizing m base with
  | nil => exact h
  | cons b bs ih => exact ih _ (wf_write b h (phys_lt base))

theorem read_eq_unlisted_of_lt {m : Mem} {lo k : Nat} (h : m.wfFrom lo = true) (hk : k < lo) : m.read k = unlistedByte k := by
  induction m generalizing lo with
  | nil => rfl
  | cons c rest ih =>
    obtain ⟨a, b⟩ := c
    simp only [Mem.wfFrom, Bool.and_eq_true, decide_eq_true_eq] at h
    have : a ≠ k := by omega
    simpa [Mem.read, this] using ih h.2 (by omega)

/-- Memories in canonical form that read the same are the same list. -/
theorem eq_of_read_eq {m m' : Mem} {lo : Nat} (h : m.wfFrom lo = true) (h' : m'.wfFrom lo = true)
    (hr : ∀ k, k < Config.memSize → m.read k = m'.read k) : m = m' := by
  induction m generalizing m' lo with
  | nil =>
    cases m' with
    | nil => rfl
    | cons c rest =>
      obtain ⟨a, b⟩ := c
      simp only [Mem.wfFrom, Bool.and_eq_true, decide_eq_true_eq, bne_iff_ne] at h'
      exact absurd (hr a h'.1.1.2).symm (by simpa [Mem.read] using h'.1.2)
  | cons c rest ih =>
    obtain ⟨a, b⟩ := c
    have hw := h
    simp only [Mem.wfFrom, Bool.and_eq_true, decide_eq_true_eq, bne_iff_ne] at h
    cases m' with
    | nil => exact absurd (hr a h.1.1.2) (by simpa [Mem.read] using h.1.2)
    | cons c' rest' =>
      obtain ⟨a', b'⟩ := c'
      have hw' := h'
      simp only [Mem.wfFrom, Bool.and_eq_true, decide_eq_true_eq, bne_iff_ne] at h'
      have haa : a = a' := by
        rcases Nat.lt_trichotomy a a' with hlt | heq | hgt
        · have h1 : Mem.wfFrom (a + 1) ((a', b') :: rest') = true := by
            simp only [Mem.wfFrom, Bool.and_eq_true, decide_eq_true_eq, bne_iff_ne]
            exact ⟨⟨⟨by omega, h'.1.1.2⟩, h'.1.2⟩, h'.2⟩
          have := hr a h.1.1.2
          rw [read_eq_unlisted_of_lt h1 (by omega)] at this
          exact absurd this (by simpa [Mem.read] using h.1.2)
        · exact heq
        · have h1 : Mem.wfFrom (a' + 1) ((a, b) :: rest) = true := by
            simp only [Mem.wfFrom, Bool.and_eq_true, decide_eq_true_eq, bne_iff_ne]
            exact ⟨⟨⟨by omega, h.1.1.2⟩, h.1.2⟩, h.2⟩
          have := hr a' h'.1.1.2
          rw [read_eq_unlisted_of_lt h1 (by omega)] at this
          exact absurd this.symm (by simpa [Mem.read] using h'.1.2)
      subst haa
      have hb : b = b' := by simpa [Mem.read] using hr a h.1.1.2
      have hrest : rest = rest' := by
        refine ih h.2 h'.2 fun k hk => ?_
        by_cases hka : k = a
        · subst hka
          rw [read_eq_unlisted_of_lt h.2 (by omega), read_eq_unlisted_of_lt h'.2 (by omega)]
        · have hk' : a ≠ k := fun e => hka e.symm
          simpa [Mem.read, hk'] using hr k hk
      rw [hb, hrest]

/-- Successive addresses: the k-th from the next one is the (k+1)-th (20_memory.md R73). -/
theorem add_one_add_ofNat (base : Word) (k : Nat) : base + 1 + BitVec.ofNat 16 k = base + BitVec.ofNat 16 (k + 1) := by
  apply BitVec.eq_of_toNat_eq
  simp only [BitVec.toNat_add, BitVec.toNat_ofNat, show (1 : Word).toNat = 1 from rfl]
  omega

/-- What a byte reads as after bytes are stored, where the addresses of the others differ from it. -/
theorem read_writeBytes_ne (m : Mem) (base : Word) (bs : List Byte) (j : Nat)
    (h : ∀ k, k < bs.length → j ≠ phys (base + BitVec.ofNat 16 k)) : (m.writeBytes base bs).read j = m.read j := by
  induction bs generalizing m base with
  | nil => rfl
  | cons b bs ih =>
    rw [Mem.writeBytes, ih]
    · exact read_write_ne _ _ (by simpa using h 0 (by simp))
    · intro k hk
      have := h (k + 1) (by simpa using hk)
      rwa [add_one_add_ofNat]

/-- What the k-th stored byte reads as: fewer than 4097 bytes never share an address. -/
theorem read_writeBytes (m : Mem) (base : Word) (bs : List Byte) (hlen : bs.length ≤ Config.memSize) (k : Nat)
    (hk : k < bs.length) : (m.writeBytes base bs).read (phys (base + BitVec.ofNat 16 k)) = bs[k] := by
  induction bs generalizing m base k with
  | nil => simp at hk
  | cons b bs ih =>
    rw [Mem.writeBytes]
    cases k with
    | zero =>
      rw [read_writeBytes_ne]
      · simp
      · intro j hj
        simp only [List.length_cons] at hlen
        rw [add_one_add_ofNat]
        have hb := base.isLt
        simp only [phys, BitVec.toNat_add, BitVec.toNat_ofNat, Config.memSize] at hlen ⊢
        omega
    | succ k =>
      have := ih (m.write (phys base) b) (base + 1) (by simp at hlen; omega) k (by simpa using hk)
      rw [add_one_add_ofNat] at this
      simpa using this

end Sys2Proof.Machine
end

