-- ==== Sys2Proof/Laws/State.lean ====
section
/-! SUPPORT. One lemma per field per update of State, true by definition. -/

namespace Sys2Proof.Machine

@[simp] theorem setReg_V (s : State) (r : Reg) (b : Byte) : (s.setReg r b).V = s.V.set r b := rfl
@[simp] theorem setReg_I (s : State) (r : Reg) (b : Byte) : (s.setReg r b).I = s.I := rfl
@[simp] theorem setReg_pc (s : State) (r : Reg) (b : Byte) : (s.setReg r b).pc = s.pc := rfl
@[simp] theorem setReg_SP (s : State) (r : Reg) (b : Byte) : (s.setReg r b).SP = s.SP := rfl
@[simp] theorem setReg_stack (s : State) (r : Reg) (b : Byte) : (s.setReg r b).stack = s.stack := rfl
@[simp] theorem setReg_DT (s : State) (r : Reg) (b : Byte) : (s.setReg r b).DT = s.DT := rfl
@[simp] theorem setReg_ST (s : State) (r : Reg) (b : Byte) : (s.setReg r b).ST = s.ST := rfl
@[simp] theorem setReg_mem (s : State) (r : Reg) (b : Byte) : (s.setReg r b).mem = s.mem := rfl
@[simp] theorem setReg_fb (s : State) (r : Reg) (b : Byte) : (s.setReg r b).fb = s.fb := rfl
@[simp] theorem setReg_keys (s : State) (r : Reg) (b : Byte) : (s.setReg r b).keys = s.keys := rfl
@[simp] theorem setReg_wait (s : State) (r : Reg) (b : Byte) : (s.setReg r b).wait = s.wait := rfl
@[simp] theorem setReg_faulted (s : State) (r : Reg) (b : Byte) : (s.setReg r b).faulted = s.faulted := rfl
@[simp] theorem setReg_params (s : State) (r : Reg) (b : Byte) : (s.setReg r b).params = s.params := rfl
@[simp] theorem setReg_draws (s : State) (r : Reg) (b : Byte) : (s.setReg r b).draws = s.draws := rfl
@[simp] theorem setReg_peek (s : State) (r : Reg) (b : Byte) (q : Word) : (s.setReg r b).peek q = s.peek q := rfl
@[simp] theorem setReg_key (s : State) (r : Reg) (b : Byte) (q : Reg) : (s.setReg r b).key q = s.key q := rfl

@[simp] theorem setPc_V (s : State) (a : Word) : (s.setPc a).V = s.V := rfl
@[simp] theorem setPc_I (s : State) (a : Word) : (s.setPc a).I = s.I := rfl
@[simp] theorem setPc_pc (s : State) (a : Word) : (s.setPc a).pc = a := rfl
@[simp] theorem setPc_SP (s : State) (a : Word) : (s.setPc a).SP = s.SP := rfl
@[simp] theorem setPc_stack (s : State) (a : Word) : (s.setPc a).stack = s.stack := rfl
@[simp] theorem setPc_DT (s : State) (a : Word) : (s.setPc a).DT = s.DT := rfl
@[simp] theorem setPc_ST (s : State) (a : Word) : (s.setPc a).ST = s.ST := rfl
@[simp] theorem setPc_mem (s : State) (a : Word) : (s.setPc a).mem = s.mem := rfl
@[simp] theorem setPc_fb (s : State) (a : Word) : (s.setPc a).fb = s.fb := rfl
@[simp] theorem setPc_keys (s : State) (a : Word) : (s.setPc a).keys = s.keys := rfl
@[simp] theorem setPc_wait (s : State) (a : Word) : (s.setPc a).wait = s.wait := rfl
@[simp] theorem setPc_faulted (s : State) (a : Word) : (s.setPc a).faulted = s.faulted := rfl
@[simp] theorem setPc_params (s : State) (a : Word) : (s.setPc a).params = s.params := rfl
@[simp] theorem setPc_draws (s : State) (a : Word) : (s.setPc a).draws = s.draws := rfl
@[simp] theorem setPc_reg (s : State) (a : Word) (q : Reg) : (s.setPc a).reg q = s.reg q := rfl
@[simp] theorem setPc_peek (s : State) (a : Word) (q : Word) : (s.setPc a).peek q = s.peek q := rfl
@[simp] theorem setPc_key (s : State) (a : Word) (q : Reg) : (s.setPc a).key q = s.key q := rfl

@[simp] theorem setI_V (s : State) (a : Word) : (s.setI a).V = s.V := rfl
@[simp] theorem setI_I (s : State) (a : Word) : (s.setI a).I = a := rfl
@[simp] theorem setI_pc (s : State) (a : Word) : (s.setI a).pc = s.pc := rfl
@[simp] theorem setI_SP (s : State) (a : Word) : (s.setI a).SP = s.SP := rfl
@[simp] theorem setI_stack (s : State) (a : Word) : (s.setI a).stack = s.stack := rfl
@[simp] theorem setI_DT (s : State) (a : Word) : (s.setI a).DT = s.DT := rfl
@[simp] theorem setI_ST (s : State) (a : Word) : (s.setI a).ST = s.ST := rfl
@[simp] theorem setI_mem (s : State) (a : Word) : (s.setI a).mem = s.mem := rfl
@[simp] theorem setI_fb (s : State) (a : Word) : (s.setI a).fb = s.fb := rfl
@[simp] theorem setI_keys (s : State) (a : Word) : (s.setI a).keys = s.keys := rfl
@[simp] theorem setI_wait (s : State) (a : Word) : (s.setI a).wait = s.wait := rfl
@[simp] theorem setI_faulted (s : State) (a : Word) : (s.setI a).faulted = s.faulted := rfl
@[simp] theorem setI_params (s : State) (a : Word) : (s.setI a).params = s.params := rfl
@[simp] theorem setI_draws (s : State) (a : Word) : (s.setI a).draws = s.draws := rfl
@[simp] theorem setI_reg (s : State) (a : Word) (q : Reg) : (s.setI a).reg q = s.reg q := rfl
@[simp] theorem setI_peek (s : State) (a : Word) (q : Word) : (s.setI a).peek q = s.peek q := rfl
@[simp] theorem setI_key (s : State) (a : Word) (q : Reg) : (s.setI a).key q = s.key q := rfl

@[simp] theorem advance_V (s : State) : s.advance.V = s.V := rfl
@[simp] theorem advance_I (s : State) : s.advance.I = s.I := rfl
@[simp] theorem advance_pc (s : State) : s.advance.pc = s.nextPc := rfl
@[simp] theorem advance_SP (s : State) : s.advance.SP = s.SP := rfl
@[simp] theorem advance_stack (s : State) : s.advance.stack = s.stack := rfl
@[simp] theorem advance_DT (s : State) : s.advance.DT = s.DT := rfl
@[simp] theorem advance_ST (s : State) : s.advance.ST = s.ST := rfl
@[simp] theorem advance_mem (s : State) : s.advance.mem = s.mem := rfl
@[simp] theorem advance_fb (s : State) : s.advance.fb = s.fb := rfl
@[simp] theorem advance_keys (s : State) : s.advance.keys = s.keys := rfl
@[simp] theorem advance_wait (s : State) : s.advance.wait = s.wait := rfl
@[simp] theorem advance_faulted (s : State) : s.advance.faulted = s.faulted := rfl
@[simp] theorem advance_params (s : State) : s.advance.params = s.params := rfl
@[simp] theorem advance_draws (s : State) : s.advance.draws = s.draws := rfl
@[simp] theorem advance_reg (s : State) (q : Reg) : s.advance.reg q = s.reg q := rfl
@[simp] theorem advance_peek (s : State) (q : Word) : s.advance.peek q = s.peek q := rfl
@[simp] theorem advance_key (s : State) (q : Reg) : s.advance.key q = s.key q := rfl

@[simp] theorem poke_V (s : State) (a : Word) (v : Byte) : (s.poke a v).V = s.V := rfl
@[simp] theorem poke_I (s : State) (a : Word) (v : Byte) : (s.poke a v).I = s.I := rfl
@[simp] theorem poke_pc (s : State) (a : Word) (v : Byte) : (s.poke a v).pc = s.pc := rfl
@[simp] theorem poke_SP (s : State) (a : Word) (v : Byte) : (s.poke a v).SP = s.SP := rfl
@[simp] theorem poke_stack (s : State) (a : Word) (v : Byte) : (s.poke a v).stack = s.stack := rfl
@[simp] theorem poke_DT (s : State) (a : Word) (v : Byte) : (s.poke a v).DT = s.DT := rfl
@[simp] theorem poke_ST (s : State) (a : Word) (v : Byte) : (s.poke a v).ST = s.ST := rfl
@[simp] theorem poke_mem (s : State) (a : Word) (v : Byte) : (s.poke a v).mem = s.mem.write (phys a) v := rfl
@[simp] theorem poke_fb (s : State) (a : Word) (v : Byte) : (s.poke a v).fb = s.fb := rfl
@[simp] theorem poke_keys (s : State) (a : Word) (v : Byte) : (s.poke a v).keys = s.keys := rfl
@[simp] theorem poke_wait (s : State) (a : Word) (v : Byte) : (s.poke a v).wait = s.wait := rfl
@[simp] theorem poke_faulted (s : State) (a : Word) (v : Byte) : (s.poke a v).faulted = s.faulted := rfl
@[simp] theorem poke_params (s : State) (a : Word) (v : Byte) : (s.poke a v).params = s.params := rfl
@[simp] theorem poke_draws (s : State) (a : Word) (v : Byte) : (s.poke a v).draws = s.draws := rfl
@[simp] theorem poke_reg (s : State) (a : Word) (v : Byte) (q : Reg) : (s.poke a v).reg q = s.reg q := rfl
@[simp] theorem poke_key (s : State) (a : Word) (v : Byte) (q : Reg) : (s.poke a v).key q = s.key q := rfl

@[simp] theorem pokeBytes_V (s : State) (a : Word) (bs : List Byte) : (s.pokeBytes a bs).V = s.V := rfl
@[simp] theorem pokeBytes_I (s : State) (a : Word) (bs : List Byte) : (s.pokeBytes a bs).I = s.I := rfl
@[simp] theorem pokeBytes_pc (s : State) (a : Word) (bs : List Byte) : (s.pokeBytes a bs).pc = s.pc := rfl
@[simp] theorem pokeBytes_SP (s : State) (a : Word) (bs : List Byte) : (s.pokeBytes a bs).SP = s.SP := rfl
@[simp] theorem pokeBytes_stack (s : State) (a : Word) (bs : List Byte) : (s.pokeBytes a bs).stack = s.stack := rfl
@[simp] theorem pokeBytes_DT (s : State) (a : Word) (bs : List Byte) : (s.pokeBytes a bs).DT = s.DT := rfl
@[simp] theorem pokeBytes_ST (s : State) (a : Word) (bs : List Byte) : (s.pokeBytes a bs).ST = s.ST := rfl
@[simp] theorem pokeBytes_mem (s : State) (a : Word) (bs : List Byte) : (s.pokeBytes a bs).mem = s.mem.writeBytes a bs := rfl
@[simp] theorem pokeBytes_fb (s : State) (a : Word) (bs : List Byte) : (s.pokeBytes a bs).fb = s.fb := rfl
@[simp] theorem pokeBytes_keys (s : State) (a : Word) (bs : List Byte) : (s.pokeBytes a bs).keys = s.keys := rfl
@[simp] theorem pokeBytes_wait (s : State) (a : Word) (bs : List Byte) : (s.pokeBytes a bs).wait = s.wait := rfl
@[simp] theorem pokeBytes_faulted (s : State) (a : Word) (bs : List Byte) : (s.pokeBytes a bs).faulted = s.faulted := rfl
@[simp] theorem pokeBytes_params (s : State) (a : Word) (bs : List Byte) : (s.pokeBytes a bs).params = s.params := rfl
@[simp] theorem pokeBytes_draws (s : State) (a : Word) (bs : List Byte) : (s.pokeBytes a bs).draws = s.draws := rfl
@[simp] theorem pokeBytes_reg (s : State) (a : Word) (bs : List Byte) (q : Reg) : (s.pokeBytes a bs).reg q = s.reg q := rfl
@[simp] theorem pokeBytes_key (s : State) (a : Word) (bs : List Byte) (q : Reg) : (s.pokeBytes a bs).key q = s.key q := rfl

@[simp] theorem tickTimers_V (s : State) : s.tickTimers.V = s.V := rfl
@[simp] theorem tickTimers_I (s : State) : s.tickTimers.I = s.I := rfl
@[simp] theorem tickTimers_pc (s : State) : s.tickTimers.pc = s.pc := rfl
@[simp] theorem tickTimers_SP (s : State) : s.tickTimers.SP = s.SP := rfl
@[simp] theorem tickTimers_stack (s : State) : s.tickTimers.stack = s.stack := rfl
@[simp] theorem tickTimers_DT (s : State) : s.tickTimers.DT = tickDown s.DT := rfl
@[simp] theorem tickTimers_ST (s : State) : s.tickTimers.ST = tickDown s.ST := rfl
@[simp] theorem tickTimers_mem (s : State) : s.tickTimers.mem = s.mem := rfl
@[simp] theorem tickTimers_fb (s : State) : s.tickTimers.fb = s.fb := rfl
@[simp] theorem tickTimers_keys (s : State) : s.tickTimers.keys = s.keys := rfl
@[simp] theorem tickTimers_wait (s : State) : s.tickTimers.wait = s.wait := rfl
@[simp] theorem tickTimers_faulted (s : State) : s.tickTimers.faulted = s.faulted := rfl
@[simp] theorem tickTimers_params (s : State) : s.tickTimers.params = s.params := rfl
@[simp] theorem tickTimers_draws (s : State) : s.tickTimers.draws = s.draws := rfl
@[simp] theorem tickTimers_reg (s : State) (q : Reg) : s.tickTimers.reg q = s.reg q := rfl
@[simp] theorem tickTimers_peek (s : State) (q : Word) : s.tickTimers.peek q = s.peek q := rfl
@[simp] theorem tickTimers_key (s : State) (q : Reg) : s.tickTimers.key q = s.key q := rfl

@[simp] theorem setKeys_V (s : State) (k : Vector Bool 16) : (s.setKeys k).V = s.V := rfl
@[simp] theorem setKeys_I (s : State) (k : Vector Bool 16) : (s.setKeys k).I = s.I := rfl
@[simp] theorem setKeys_pc (s : State) (k : Vector Bool 16) : (s.setKeys k).pc = s.pc := rfl
@[simp] theorem setKeys_SP (s : State) (k : Vector Bool 16) : (s.setKeys k).SP = s.SP := rfl
@[simp] theorem setKeys_stack (s : State) (k : Vector Bool 16) : (s.setKeys k).stack = s.stack := rfl
@[simp] theorem setKeys_DT (s : State) (k : Vector Bool 16) : (s.setKeys k).DT = s.DT := rfl
@[simp] theorem setKeys_ST (s : State) (k : Vector Bool 16) : (s.setKeys k).ST = s.ST := rfl
@[simp] theorem setKeys_mem (s : State) (k : Vector Bool 16) : (s.setKeys k).mem = s.mem := rfl
@[simp] theorem setKeys_fb (s : State) (k : Vector Bool 16) : (s.setKeys k).fb = s.fb := rfl
@[simp] theorem setKeys_keys (s : State) (k : Vector Bool 16) : (s.setKeys k).keys = k := rfl
@[simp] theorem setKeys_wait (s : State) (k : Vector Bool 16) : (s.setKeys k).wait = s.wait := rfl
@[simp] theorem setKeys_faulted (s : State) (k : Vector Bool 16) : (s.setKeys k).faulted = s.faulted := rfl
@[simp] theorem setKeys_params (s : State) (k : Vector Bool 16) : (s.setKeys k).params = s.params := rfl
@[simp] theorem setKeys_draws (s : State) (k : Vector Bool 16) : (s.setKeys k).draws = s.draws := rfl
@[simp] theorem setKeys_reg (s : State) (k : Vector Bool 16) (q : Reg) : (s.setKeys k).reg q = s.reg q := rfl
@[simp] theorem setKeys_peek (s : State) (k : Vector Bool 16) (q : Word) : (s.setKeys k).peek q = s.peek q := rfl

@[simp] theorem loadImage_V (s : State) (bs : List Byte) : (s.loadImage bs).V = s.V := rfl
@[simp] theorem loadImage_I (s : State) (bs : List Byte) : (s.loadImage bs).I = s.I := rfl
@[simp] theorem loadImage_pc (s : State) (bs : List Byte) : (s.loadImage bs).pc = s.pc := rfl
@[simp] theorem loadImage_SP (s : State) (bs : List Byte) : (s.loadImage bs).SP = s.SP := rfl
@[simp] theorem loadImage_stack (s : State) (bs : List Byte) : (s.loadImage bs).stack = s.stack := rfl
@[simp] theorem loadImage_DT (s : State) (bs : List Byte) : (s.loadImage bs).DT = s.DT := rfl
@[simp] theorem loadImage_ST (s : State) (bs : List Byte) : (s.loadImage bs).ST = s.ST := rfl
@[simp] theorem loadImage_mem (s : State) (bs : List Byte) : (s.loadImage bs).mem = s.mem.writeBytes Config.programBase bs := rfl
@[simp] theorem loadImage_fb (s : State) (bs : List Byte) : (s.loadImage bs).fb = s.fb := rfl
@[simp] theorem loadImage_keys (s : State) (bs : List Byte) : (s.loadImage bs).keys = s.keys := rfl
@[simp] theorem loadImage_wait (s : State) (bs : List Byte) : (s.loadImage bs).wait = s.wait := rfl
@[simp] theorem loadImage_faulted (s : State) (bs : List Byte) : (s.loadImage bs).faulted = s.faulted := rfl
@[simp] theorem loadImage_params (s : State) (bs : List Byte) : (s.loadImage bs).params = s.params := rfl
@[simp] theorem loadImage_draws (s : State) (bs : List Byte) : (s.loadImage bs).draws = s.draws := rfl
@[simp] theorem loadImage_reg (s : State) (bs : List Byte) (q : Reg) : (s.loadImage bs).reg q = s.reg q := rfl
@[simp] theorem loadImage_key (s : State) (bs : List Byte) (q : Reg) : (s.loadImage bs).key q = s.key q := rfl

/-- A register write is read back, and leaves the other registers. -/
theorem reg_setReg (s : State) (r q : Reg) (b : Byte) : (s.setReg r b).reg q = if q = r then b else s.reg q := by
  simp only [State.reg, State.setReg, Fin.getElem_fin, Vector.getElem_set]
  by_cases h : q = r
  · subst h; simp
  · rw [if_neg h, if_neg fun e => h (Fin.ext e.symm)]

@[simp] theorem reg_setReg_self (s : State) (r : Reg) (b : Byte) : (s.setReg r b).reg r = b := by simp [reg_setReg]

theorem reg_setReg_ne (s : State) (r q : Reg) (b : Byte) (h : q ≠ r) : (s.setReg r b).reg q = s.reg q := by
  simp [reg_setReg, h]

end Sys2Proof.Machine
end

