-- ==== Sys2Proof/Laws/Ops.lean ====
section
/-! SUPPORT. What each shared operation of Machine/Ops.lean can do, said once: bytes at addresses, ranges of addresses, the
fetch, push and pop. -/

namespace Sys2Proof.Machine

@[simp] theorem peek_poke_self (s : State) (a : Word) (v : Byte) : (s.poke a v).peek a = v := by
  simp [State.peek, State.poke]

theorem peek_poke (s : State) (a b : Word) (v : Byte) : (s.poke a v).peek b = if phys b = phys a then v else s.peek b := by
  simp [State.peek, State.poke, read_write]

theorem peek_pokeBytes_ne (s : State) (base a : Word) (bs : List Byte)
    (h : ∀ k, k < bs.length → phys a ≠ phys (base + BitVec.ofNat 16 k)) : (s.pokeBytes base bs).peek a = s.peek a :=
  read_writeBytes_ne _ _ _ _ h

theorem peek_pokeBytes (s : State) (base : Word) (bs : List Byte) (hlen : bs.length ≤ Config.memSize) (k : Nat)
    (hk : k < bs.length) : (s.pokeBytes base bs).peek (base + BitVec.ofNat 16 k) = bs[k] :=
  read_writeBytes _ _ _ hlen k hk

theorem phys_ne_next (a : Word) : phys (a + 1) ≠ phys a := by
  have := a.isLt
  simp only [phys, BitVec.toNat_add, show (1 : Word).toNat = 1 from rfl, Config.memSize]
  omega

theorem outOfRange_eq_true {p : Params} {a : Word} : outOfRange p a = true ↔ p.memOob = .fault ∧ 4096 ≤ a.toNat := by
  unfold outOfRange
  cases p.memOob <;> simp [Config.memSize]

theorem mem_addresses {base a : Word} {n : Nat} : a ∈ addresses base n ↔ ∃ k, k < n ∧ a = base + BitVec.ofNat 16 k := by
  simp only [addresses, List.mem_map, List.mem_range]
  exact ⟨fun ⟨k, hk, e⟩ => ⟨k, hk, e.symm⟩, fun ⟨k, hk, e⟩ => ⟨k, hk, e.symm⟩⟩

/-- No AddressRange fault exactly if every address is in range. -/
theorem rangeFault_eq_none {s : State} {base : Word} {n : Nat} : s.rangeFault base n = none ↔ InRange s base n := by
  simp only [State.rangeFault, Option.map_eq_none_iff, List.find?_eq_none, outOfRange_eq_true, InRange]
  constructor
  · intro h
    by_cases hp : s.params.memOob = .wrap
    · exact .inl hp
    · have hf : s.params.memOob = .fault := by cases hm : s.params.memOob <;> simp_all
      refine .inr fun k hk => ?_
      have := h _ (mem_addresses.mpr ⟨k, hk, rfl⟩)
      simp only [hf, true_and] at this
      omega
  · rintro (h | h) a ha ⟨hf, hge⟩
    · simp [h] at hf
    · obtain ⟨k, hk, rfl⟩ := mem_addresses.mp ha
      have := h k hk
      omega

/-- The AddressRange fault names the first address out of range. -/
theorem rangeFault_first {s : State} {base : Word} {n k : Nat} (hf : s.params.memOob = .fault) (hk : k < n)
    (hout : 4096 ≤ (base + BitVec.ofNat 16 k).toNat) (hin : ∀ j, j < k → (base + BitVec.ofNat 16 j).toNat < 4096) :
    s.rangeFault base n = some (.addressRange (base + BitVec.ofNat 16 k) s.pc) := by
  obtain ⟨m, rfl⟩ : ∃ m, n = k + (1 + m) := ⟨n - k - 1, by omega⟩
  have hsplit : addresses base (k + (1 + m)) = addresses base k ++ (base + BitVec.ofNat 16 k) ::
      (List.range m).map (fun j => base + BitVec.ofNat 16 (k + (1 + j))) := by
    simp [addresses, List.range_add, Function.comp_def]
  have hpre : (addresses base k).find? (outOfRange s.params) = none := by
    rw [List.find?_eq_none]
    intro a ha
    obtain ⟨j, hj, rfl⟩ := mem_addresses.mp ha
    rw [outOfRange_eq_true]
    have := hin j hj
    omega
  have hhit : outOfRange s.params (base + BitVec.ofNat 16 k) = true := outOfRange_eq_true.mpr ⟨hf, hout⟩
  simp [State.rangeFault, hsplit, List.find?_append, hpre, hhit]

/-- An AddressRange fault comes only from an access that leaves the range. -/
theorem rangeFault_eq_some {s : State} {base : Word} {n : Nat} {f : Fault} (h : s.rangeFault base n = some f) :
    ¬ InRange s base n := by
  rw [← rangeFault_eq_none, h]; simp

theorem fetch_inRange {s : State} (h : InRange s s.pc 2) : fetch s = .ok (wordOfBytes (s.peek s.pc) (s.peek (s.pc + 1))) := by
  simp [fetch, rangeFault_eq_none.mpr h]

/-- What is stored at pc is what is fetched. -/
theorem fetch_storeWord {s : State} (w : Word) (h : InRange s s.pc 2) : fetch (s.storeWord w) = .ok w := by
  have h' : InRange (s.storeWord w) (s.storeWord w).pc 2 := h
  rw [fetch_inRange h']
  have h1 : (s.storeWord w).peek s.pc = hiByte w := by
    simp only [State.storeWord, peek_poke, if_neg (phys_ne_next s.pc).symm, if_true]
  have h2 : (s.storeWord w).peek (s.pc + 1) = loByte w := by simp [State.storeWord]
  show Except.ok (wordOfBytes ((s.storeWord w).peek s.pc) ((s.storeWord w).peek (s.pc + 1))) = _
  rw [h1, h2, wordOfBytes_bytes]

theorem push_ok {s : State} {a v : Word} (h : s.SP.val < 16) :
    s.push a v = .ok { s with stack := s.stack.set s.SP.val v, SP := ⟨s.SP.val + 1, by omega⟩ } := by
  simp [State.push, h]

theorem push_full {s : State} {a v : Word} (h : s.SP.val = 16) : s.push a v = .error (.stackOverflow a) := by
  simp [State.push, h]

theorem popPc_ok {s : State} {a : Word} (h : 0 < s.SP.val) :
    s.popPc a = .ok { s with SP := ⟨s.SP.val - 1, by omega⟩, pc := s.stack[s.SP.val - 1]'(by omega) } := by
  simp [State.popPc, h]

theorem popPc_empty {s : State} {a : Word} (h : s.SP.val = 0) : s.popPc a = .error (.stackUnderflow a) := by
  simp [State.popPc, h]

/-- What a load does to each register. -/
theorem loadRegs_getElem (V : Vector Byte 16) (bytes : List Byte) (r : Reg) :
    (loadRegs V bytes)[r] = bytes.getD r.val V[r] := by
  simp [loadRegs]

theorem length_addresses (base : Word) (n : Nat) : (addresses base n).length = n := by simp [addresses]

theorem getD_peekBytes (s : State) (base : Word) (n k : Nat) (b : Byte) :
    (s.peekBytes base n).getD k b = if k < n then s.peek (base + BitVec.ofNat 16 k) else b := by
  split
  · rename_i h
    simp [State.peekBytes, addresses, List.getD_eq_getElem?_getD, h]
  · rename_i h
    simp [State.peekBytes, addresses, List.getD_eq_getElem?_getD, h]

theorem length_regsUpTo (s : State) (x : Reg) : (s.regsUpTo x).length = x.val + 1 := by
  have := x.isLt
  simp only [State.regsUpTo, List.length_take, Vector.length_toList]
  omega

theorem getElem_regsUpTo (s : State) (x r : Reg) (h : r ≤ x) :
    (s.regsUpTo x)[r.val]'(by rw [length_regsUpTo]; exact Nat.lt_succ_of_le h) = s.reg r := by
  simp [State.regsUpTo, State.reg]

end Sys2Proof.Machine
end

