-- ==== Sys2Proof/Laws/Alu.lean ====
section
/-! SUPPORT. What an alu_unit operation does to the register file, in either order of `VF_ORDER`, and which parts of the state the
small updates leave alone. -/

namespace Sys2Proof.Machine

/-- Weakening what may change. -/
theorem ChangesOnly.mono {s t : State} {P Q : Part → Prop} (h : ChangesOnly s t P) (hPQ : ∀ p, P p → Q p) : ChangesOnly s t Q :=
  fun p hp => h p fun hP => hp (hPQ p hP)

/-- A state that differs in its registers and pc only. -/
theorem changesOnly_of_V_pc {s t : State} {P : Part → Prop} (ht : t = { s with V := t.V, pc := t.pc }) (hpc : P .pc)
    (hr : ∀ r, ¬ P (.reg r) → t.reg r = s.reg r) : ChangesOnly s t P := by
  intro p hp
  cases p with
  | reg r => exact hr r hp
  | pc => exact absurd hpc hp
  | _ => rw [ht]; rfl

@[simp] theorem writeFlag_none (s : State) : s.writeFlag none = s := rfl
@[simp] theorem writeFlag_some (s : State) (f : Bool) : s.writeFlag (some f) = s.setReg VF (flagByte f) := rfl

@[simp] theorem operand_imm (s : State) (kk : Byte) : s.operand (.imm kk) = kk := rfl
@[simp] theorem operand_reg (s : State) (y : Reg) : s.operand (.reg y) = s.reg y := rfl

/-- An operation without a flag writes V[x], in either order. -/
theorem aluWrite_noFlag {op : AluOp} (hop : flagFirst op = false) (hf : ∀ a b, aluFlag op a b = none) (x : Reg) (b : Operand)
    (rnd : Byte) (s : State) : aluWrite op x b rnd s = s.setReg x (aluResult op (s.reg x) (s.operand b) rnd) := by
  unfold aluWrite aluFlagLast
  cases s.params.vfOrder <;> simp [hop, hf]

/-- Operands read first: V[x], then VF. -/
theorem aluWrite_flagLast {op : AluOp} {s : State} (h : s.params.vfOrder = .flagLast ∨ flagFirst op = false) (x : Reg)
    (b : Operand) (rnd : Byte) : aluWrite op x b rnd s = aluFlagLast op x b rnd s := by
  unfold aluWrite
  rcases h with h | h
  · simp [h]
  · cases s.params.vfOrder <;> simp [h]

/-- VF first, then V[x] from the registers as they stand. -/
theorem aluWrite_flagFirst {op : AluOp} {s : State} (h : s.params.vfOrder = .sequential) (hop : flagFirst op = true) (x : Reg)
    (b : Operand) (rnd : Byte) : aluWrite op x b rnd s = aluFlagFirst op x b rnd s := by
  unfold aluWrite
  simp [h, hop]

/-- An alu_unit operation changes V only. -/
theorem aluWrite_fields (op : AluOp) (x : Reg) (b : Operand) (rnd : Byte) (s : State) :
    aluWrite op x b rnd s = { s with V := (aluWrite op x b rnd s).V } := by
  unfold aluWrite aluFlagLast aluFlagFirst
  cases s.params.vfOrder <;> cases op <;> rfl

/-- An alu_unit operation writes V[x], and VF if it has a flag. -/
theorem aluWrite_reg_ne (op : AluOp) (x : Reg) (b : Operand) (rnd : Byte) (s : State) (r : Reg) (hx : r ≠ x)
    (hv : r = VF → ∀ a c, aluFlag op a c = none) : (aluWrite op x b rnd s).reg r = s.reg r := by
  by_cases hr : r = VF
  · have hf := hv hr
    unfold aluWrite aluFlagLast aluFlagFirst
    cases s.params.vfOrder <;> simp [hf, reg_setReg, hx]
  · unfold aluWrite aluFlagLast aluFlagFirst
    cases s.params.vfOrder <;> cases op <;> simp [aluFlag, flagFirst, reg_setReg, hx, hr]

end Sys2Proof.Machine
end

