-- ==== Sys2Proof/Laws/Framebuffer.lean ====
section
/-! SUPPORT. What Draw does, said once: it flips exactly the cells a set sprite bit reaches, and its collision bit says whether one
of them was set (41_display.md R121). -/

namespace Sys2Proof.Machine

theorem pixel_setPixel (fb : Framebuffer) (row row' : Fin 32) (col col' : Fin 64) (b : Bool) :
    (fb.setPixel row col b).pixel row' col' = if row' = row ∧ col' = col then b else fb.pixel row' col' := by
  by_cases hr : row' = row
  · subst hr
    by_cases hc : col' = col
    · simp [Framebuffer.setPixel, Framebuffer.pixel, hc]
    · have : col.val ≠ col'.val := fun e => hc (Fin.ext e.symm)
      simp [Framebuffer.setPixel, Framebuffer.pixel, hc, this]
  · have : row.val ≠ row'.val := fun e => hr (Fin.ext e.symm)
    simp [Framebuffer.setPixel, Framebuffer.pixel, hr, this]

/-- Framebuffers that read the same are equal. -/
theorem framebuffer_ext {fb fb' : Framebuffer} (h : ∀ row col, fb.pixel row col = fb'.pixel row col) : fb = fb' := by
  apply Vector.ext
  intro i hi
  apply Vector.ext
  intro j hj
  exact h ⟨i, hi⟩ ⟨j, hj⟩

theorem screenCol_inj {ox : Byte} {c c' : Nat} (hc : c < 8) (hc' : c' < 8) (h : screenCol ox c = screenCol ox c') : c = c' := by
  have := congrArg Fin.val h
  simp only [screenCol] at this
  omega

theorem screenRow_inj {oy : Byte} {r r' : Nat} (hr : r < 32) (hr' : r' < 32) (h : screenRow oy r = screenRow oy r') : r = r' := by
  have := congrArg Fin.val h
  simp only [screenRow] at this
  omega

/-- The columns `cs` of one sprite row, drawn one after the other. -/
theorem foldl_drawPixel (ox oy row : Byte) (r : Nat) (cs : List Nat) (hnd : cs.Nodup) (h8 : ∀ c ∈ cs, c < 8)
    (acc : Framebuffer × Bool) :
    (∀ R C, (cs.foldl (drawPixel ox oy row r) acc).1.pixel R C =
      if R = screenRow oy r ∧ ∃ c ∈ cs, spriteBit row c = true ∧ C = screenCol ox c then !acc.1.pixel R C else acc.1.pixel R C) ∧
    ((cs.foldl (drawPixel ox oy row r) acc).2 = true ↔
      acc.2 = true ∨ ∃ c ∈ cs, spriteBit row c = true ∧ acc.1.pixel (screenRow oy r) (screenCol ox c) = true) := by
  induction cs generalizing acc with
  | nil => simp
  | cons c cs ih =>
    obtain ⟨hpix, hcol⟩ := ih (List.nodup_cons.mp hnd).2 (fun c' hc' => h8 c' (by simp [hc'])) (drawPixel ox oy row r acc c)
    have hnew : ∀ c' ∈ cs, screenCol ox c' ≠ screenCol ox c := by
      intro c' hc' e
      have : c' = c := screenCol_inj (h8 c' (by simp [hc'])) (h8 c (by simp)) e
      exact (List.nodup_cons.mp hnd).1 (this ▸ hc')
    rw [List.foldl_cons]
    by_cases hb : spriteBit row c = true
    · have hd : drawPixel ox oy row r acc c =
          (acc.1.setPixel (screenRow oy r) (screenCol ox c) (!acc.1.pixel (screenRow oy r) (screenCol ox c)),
            acc.2 || acc.1.pixel (screenRow oy r) (screenCol ox c)) := by simp [drawPixel, hb]
      rw [hd] at hpix hcol ⊢
      constructor
      · intro R C
        rw [hpix R C]
        simp only [pixel_setPixel]
        by_cases hR : R = screenRow oy r
        · subst hR
          by_cases hC : C = screenCol ox c
          · subst hC
            have hno : ¬ ∃ c' ∈ cs, spriteBit row c' = true ∧ screenCol ox c = screenCol ox c' :=
              fun ⟨c', hc', _, e⟩ => hnew c' hc' e.symm
            simp [hno, hb]
          · simp [hC]
        · simp [hR]
      · rw [hcol]
        simp only [pixel_setPixel, Bool.or_eq_true, List.mem_cons, exists_eq_or_imp, hb, true_and, or_assoc]
        refine or_congr Iff.rfl (or_congr Iff.rfl ?_)
        refine exists_congr fun c' => and_congr_right fun hc' => and_congr_right fun _ => ?_
        simp [hnew c' hc']
    · have hd : drawPixel ox oy row r acc c = acc := by simp [drawPixel, hb]
      rw [hd] at hpix hcol ⊢
      refine ⟨fun R C => ?_, ?_⟩
      · rw [hpix R C]; simp [hb]
      · rw [hcol]; simp [hb]

/-- One sprite row reaches a cell. -/
def RowReaches (ox oy row : Byte) (r : Nat) (R : Fin 32) (C : Fin 64) : Prop :=
  R = screenRow oy r ∧ ∃ c, c < 8 ∧ spriteBit row c = true ∧ C = screenCol ox c

/-- One sprite row. -/
theorem drawRow_spec (ox oy row : Byte) (r : Nat) (acc : Framebuffer × Bool) :
    (∀ R C, RowReaches ox oy row r R C → (drawRow ox oy row r acc).1.pixel R C = !acc.1.pixel R C) ∧
    (∀ R C, ¬ RowReaches ox oy row r R C → (drawRow ox oy row r acc).1.pixel R C = acc.1.pixel R C) ∧
    ((drawRow ox oy row r acc).2 = true ↔
      acc.2 = true ∨ ∃ c, c < 8 ∧ spriteBit row c = true ∧ acc.1.pixel (screenRow oy r) (screenCol ox c) = true) := by
  obtain ⟨hp, hc⟩ := foldl_drawPixel ox oy row r (List.range 8) List.nodup_range (fun c hc => List.mem_range.mp hc) acc
  simp only [List.mem_range] at hp hc
  exact ⟨fun R C h => (hp R C).trans (if_pos h), fun R C h => (hp R C).trans (if_neg h), hc⟩

/-- Some set bit of the sprite rows, the first of them row `r0`, reaches the cell. -/
def Reaches (ox oy : Byte) (r0 : Nat) (rows : List Byte) (R : Fin 32) (C : Fin 64) : Prop :=
  ∃ r c, ∃ h : r < rows.length, c < 8 ∧ spriteBit rows[r] c = true ∧ R = screenRow oy (r0 + r) ∧ C = screenCol ox c

theorem reaches_cons {ox oy row : Byte} {r0 : Nat} {rows : List Byte} {R : Fin 32} {C : Fin 64} :
    Reaches ox oy r0 (row :: rows) R C ↔
      RowReaches ox oy row r0 R C ∨ Reaches ox oy (r0 + 1) rows R C := by
  constructor
  · rintro ⟨r, c, h, hc, hb, hR, hC⟩
    cases r with
    | zero => exact .inl ⟨hR, c, hc, hb, hC⟩
    | succ r => exact .inr ⟨r, c, by simpa using h, hc, hb, by rw [hR]; congr 1; omega, hC⟩
  · rintro (⟨hR, c, hc, hb, hC⟩ | ⟨r, c, h, hc, hb, hR, hC⟩)
    · exact ⟨0, c, by simp, hc, hb, hR, hC⟩
    · exact ⟨r + 1, c, by simpa using h, hc, hb, by rw [hR]; congr 1; omega, hC⟩

/-- The sprite rows from row `r0` on: at most 32 rows never reach one cell twice. -/
theorem drawRows_spec (ox oy : Byte) (rows : List Byte) (r0 : Nat) (h32 : r0 + rows.length ≤ 32) (acc : Framebuffer × Bool) :
    (∀ R C, Reaches ox oy r0 rows R C → (drawRows ox oy r0 rows acc).1.pixel R C = !acc.1.pixel R C) ∧
    (∀ R C, ¬ Reaches ox oy r0 rows R C → (drawRows ox oy r0 rows acc).1.pixel R C = acc.1.pixel R C) ∧
    ((drawRows ox oy r0 rows acc).2 = true ↔ acc.2 = true ∨ ∃ R C, Reaches ox oy r0 rows R C ∧ acc.1.pixel R C = true) := by
  induction rows generalizing r0 acc with
  | nil =>
    have hno : ∀ R C, ¬ Reaches ox oy r0 [] R C := fun R C ⟨_, _, h, _⟩ => by simp at h
    refine ⟨fun R C h => absurd h (hno R C), fun _ _ _ => rfl, ?_⟩
    simp [drawRows, hno]
  | cons row rows ih =>
    simp only [List.length_cons] at h32
    obtain ⟨hp, hp', hc⟩ := drawRow_spec ox oy row r0 acc
    obtain ⟨h1, h2, h3⟩ := ih (r0 + 1) (by omega) (drawRow ox oy row r0 acc)
    have hother : ∀ R C, Reaches ox oy (r0 + 1) rows R C → R ≠ screenRow oy r0 := by
      rintro R C ⟨r, c, h, _, _, hR, _⟩ e
      have := screenRow_inj (by omega) (by omega) (hR.symm.trans e)
      omega
    have hsame : ∀ R C, Reaches ox oy (r0 + 1) rows R C → (drawRow ox oy row r0 acc).1.pixel R C = acc.1.pixel R C := by
      intro R C hr
      exact hp' R C fun h => hother R C hr h.1
    refine ⟨fun R C hr => ?_, fun R C hr => ?_, ?_⟩
    · show (drawRows ox oy (r0 + 1) rows (drawRow ox oy row r0 acc)).1.pixel R C = _
      by_cases hlater : Reaches ox oy (r0 + 1) rows R C
      · rw [h1 R C hlater, hsame R C hlater]
      · rw [h2 R C hlater]
        exact hp R C ((reaches_cons.mp hr).resolve_right hlater)
    · show (drawRows ox oy (r0 + 1) rows (drawRow ox oy row r0 acc)).1.pixel R C = _
      rw [reaches_cons, not_or] at hr
      rw [h2 R C hr.2, hp' R C hr.1]
    · show (drawRows ox oy (r0 + 1) rows (drawRow ox oy row r0 acc)).2 = true ↔ _
      rw [h3, hc]
      constructor
      · rintro ((h | ⟨c, hc8, hb, hset⟩) | ⟨R, C, hr, hset⟩)
        · exact .inl h
        · exact .inr ⟨_, _, reaches_cons.mpr (.inl ⟨rfl, c, hc8, hb, rfl⟩), hset⟩
        · rw [hsame R C hr] at hset
          exact .inr ⟨R, C, reaches_cons.mpr (.inr hr), hset⟩
      · rintro (h | ⟨R, C, hr, hset⟩)
        · exact .inl (.inl h)
        · rcases reaches_cons.mp hr with ⟨rfl, c, hc8, hb, rfl⟩ | hr
          · exact .inl (.inr ⟨c, hc8, hb, hset⟩)
          · exact .inr ⟨R, C, hr, by rw [hsame R C hr]; exact hset⟩

/-- Draw (R121): the cells that a set sprite bit reaches are flipped, the others stay, and the collision bit says whether one of the
reached cells was set. -/
theorem draw_spec (ox oy : Byte) (rows : List Byte) (h32 : rows.length ≤ 32) (fb : Framebuffer) :
    (∀ R C, Reaches ox oy 0 rows R C → (draw ox oy rows fb).1.pixel R C = !fb.pixel R C) ∧
    (∀ R C, ¬ Reaches ox oy 0 rows R C → (draw ox oy rows fb).1.pixel R C = fb.pixel R C) ∧
    ((draw ox oy rows fb).2 = true ↔ ∃ R C, Reaches ox oy 0 rows R C ∧ fb.pixel R C = true) := by
  have := drawRows_spec ox oy rows 0 (by omega) (fb, false)
  simpa [draw] using this

/-- The sprite that Dxyn reads from `I` reaches a cell as `SpriteReaches` says. -/
theorem reaches_peekBytes (s : State) (ox oy : Byte) (n : Nibble) (R : Fin 32) (C : Fin 64) :
    Reaches ox oy 0 (s.peekBytes s.I n.toNat) R C ↔ SpriteReaches s ox oy n R C := by
  have hlen : (s.peekBytes s.I n.toNat).length = n.toNat := by simp [State.peekBytes, length_addresses]
  have hget : ∀ (r : Nat) (h : r < (s.peekBytes s.I n.toNat).length),
      (s.peekBytes s.I n.toNat)[r] = s.peek (s.I + BitVec.ofNat 16 r) := by
    intro r h
    simp [State.peekBytes, addresses]
  constructor
  · rintro ⟨r, c, h, hc, hb, rfl, rfl⟩
    rw [hget r h] at hb
    exact ⟨r, c, by omega, hc, hb, by simp [screenRow], rfl⟩
  · rintro ⟨r, c, h, hc, hb, hR, hC⟩
    refine ⟨r, c, by omega, hc, ?_, Fin.ext (by simp [screenRow, hR]), Fin.ext (by simp [screenCol, hC])⟩
    rw [hget r (by omega)]
    exact hb

end Sys2Proof.Machine
end

