-- ==== Sys2Proof/Laws/Keys.lean ====
section
/-! SUPPORT. The wait-for-key scan and the key index fault, said once (45_keys_timers.md R214, R217). -/

namespace Sys2Proof.Machine

theorem foldl_last_none {α : Type} (p : α → Bool) (l : List α) (acc : Option α) :
    l.foldl (fun k i => if p i then some i else k) acc = none ↔ acc = none ∧ ∀ i ∈ l, p i = false := by
  induction l generalizing acc with
  | nil => simp
  | cons i l ih =>
    rw [List.foldl_cons, ih]
    by_cases h : p i <;> simp [h]

theorem foldl_last_some {α : Type} (p : α → Bool) (l : List α) (acc : Option α) (k : α)
    (h : l.foldl (fun k i => if p i then some i else k) acc = some k) : acc = some k ∨ (k ∈ l ∧ p k = true) := by
  induction l generalizing acc with
  | nil => exact .inl h
  | cons i l ih =>
    rw [List.foldl_cons] at h
    rcases ih _ h with h' | ⟨hm, hp⟩
    · by_cases hi : p i
      · rw [if_pos hi] at h'
        cases h'
        exact .inr ⟨by simp, hi⟩
      · rw [if_neg hi] at h'
        exact .inl h'
    · exact .inr ⟨by simp [hm], hp⟩

/-- No key is found exactly if none is pressed. -/
theorem lastPressed_eq_none {s : State} : lastPressed s = none ↔ ∀ k, s.key k = false := by
  simp [lastPressed, foldl_last_none]

/-- The key found is pressed. -/
theorem key_of_lastPressed {s : State} {k : Reg} (h : lastPressed s = some k) : s.key k = true := by
  rcases foldl_last_some _ _ _ _ h with h | ⟨_, h⟩
  · cases h
  · exact h

/-- The key found is the highest one pressed. -/
theorem lastPressed_eq {s : State} {k : Reg} (hk : s.key k = true) (hmax : ∀ j, k < j → s.key j = false) :
    lastPressed s = some k := by
  have hsplit : List.finRange 16 =
      (List.finRange 16).take k.val ++ k :: (List.finRange 16).drop (k.val + 1) := by
    clear hk hmax
    revert k; decide
  have htail : ∀ i ∈ (List.finRange 16).drop (k.val + 1), s.key i = false := by
    intro i hi
    refine hmax i ?_
    obtain ⟨j, hj, rfl⟩ := List.mem_iff_getElem.mp hi
    simp only [List.getElem_drop, List.getElem_finRange, Fin.lt_def, Fin.val_cast]
    omega
  unfold lastPressed
  rw [hsplit, List.foldl_append, List.foldl_cons, if_pos hk]
  generalize (List.finRange 16).drop (k.val + 1) = l at htail
  induction l with
  | nil => rfl
  | cons i l ih =>
    rw [List.foldl_cons, if_neg (by simp [htail i (by simp)])]
    exact ih fun j hj => htail j (by simp [hj])

/-- No KeyRange fault exactly if the index is admitted (R217). -/
theorem keyFault_eq_none {s : State} {v : Byte} : s.keyFault v = none ↔ s.params.keyOob = .wrap ∨ v.toNat < 16 := by
  unfold State.keyFault
  cases s.params.keyOob
  · simp
  · by_cases h : 16 ≤ v.toNat
    · simp [h]
    · simp [h]; omega

/-- The KeyRange fault names the value and the fetch address. -/
theorem keyFault_eq_some {s : State} {v : Byte} (hf : s.params.keyOob = .fault) (h : 16 ≤ v.toNat) :
    s.keyFault v = some (.keyRange v s.pc) := by
  simp [State.keyFault, hf, h]

end Sys2Proof.Machine
end

