-- ==== Sys2Proof/Laws/Exec.lean ====
section
/-! SUPPORT. For each instruction that can end in a fatal outcome or that looks at a parameter: its outcome, case by case, so that no
proof unfolds `exec`. -/

namespace Sys2Proof.Machine

theorem exec_callAddr {s : State} (addr : Addr12) (h : s.SP.val < 16) :
    exec (.callAddr addr) s = .next { s with
      stack := s.stack.set s.SP.val s.nextPc, SP := ⟨s.SP.val + 1, by omega⟩, pc := zextAddr addr } := by
  simp only [exec, execCallAddr, push_ok (s := s.advance) h, outcome, Except.map]
  rfl

theorem exec_callAddr_full {s : State} (addr : Addr12) (h : s.SP.val = 16) :
    exec (.callAddr addr) s = .fault (.stackOverflow s.pc) := by
  simp [exec, execCallAddr, push_full (s := s.advance) h, outcome, raise, Except.map]

theorem exec_ret {s : State} (h : 0 < s.SP.val) :
    exec .ret s = .next { s with SP := ⟨s.SP.val - 1, by omega⟩, pc := s.stack[s.SP.val - 1]'(by omega) } := by
  simp only [exec, execRet, popPc_ok (s := s.advance) h, outcome]
  rfl

theorem exec_ret_empty {s : State} (h : s.SP.val = 0) : exec .ret s = .fault (.stackUnderflow s.pc) := by
  simp [exec, execRet, popPc_empty (s := s.advance) h, outcome, raise]

theorem exec_drwVxVyN {s : State} (x y : Reg) {n : Nibble} (h : InRange s s.I n.toNat) :
    exec (.drwVxVyN x y n) s =
      .next (s.advance.drawn (draw (s.drawOrigin x y).1 (s.drawOrigin x y).2 (s.peekBytes s.I n.toNat) s.fb)) := by
  simp [exec, execDrwVxVyN, rangeFault_eq_none.mpr h]

theorem exec_ldBVx {s : State} (x : Reg) (h : InRange s s.I 3) :
    exec (.ldBVx x) s = .next (s.advance.pokeBytes s.I (bcdDigits (s.reg x))) := by
  simp [exec, execLdBVx, storeAtI, bcdDigits, rangeFault_eq_none.mpr h]

theorem exec_ldMemVx {s : State} (x : Reg) (h : InRange s s.I (x.val + 1)) :
    exec (.ldMemVx x) s = .next (s.advance.pokeBytes s.I (s.regsUpTo x)) := by
  simp [exec, execLdMemVx, storeAtI, length_regsUpTo, rangeFault_eq_none.mpr h]

theorem exec_ldVxMem {s : State} (x : Reg) (h : InRange s s.I (x.val + 1)) :
    exec (.ldVxMem x) s = .next { s.advance with V := loadRegs s.V (s.peekBytes s.I (x.val + 1)) } := by
  simp [exec, execLdVxMem, rangeFault_eq_none.mpr h]

theorem exec_skpVx {s : State} {x : Reg} (h : s.params.keyOob = .wrap ∨ (s.reg x).toNat < 16) :
    exec (.skpVx x) s = .next (skipIf (s.key (keyIndex (s.reg x))) s) := by
  simp [exec, execSkpVx, keyFault_eq_none.mpr h]

theorem exec_sknpVx {s : State} {x : Reg} (h : s.params.keyOob = .wrap ∨ (s.reg x).toNat < 16) :
    exec (.sknpVx x) s = .next (skipIf (!s.key (keyIndex (s.reg x))) s) := by
  simp [exec, execSknpVx, keyFault_eq_none.mpr h]

theorem exec_ldVxK_found {s : State} (x : Reg) {k : Reg} (h : lastPressed s = some k) :
    exec (.ldVxK x) s = .next (s.keyFound x k) := by
  simp [exec, execLdVxK, h]

theorem exec_ldVxK_none {s : State} (x : Reg) (h : lastPressed s = none) : exec (.ldVxK x) s = .next s.keyAwaited := by
  simp [exec, execLdVxK, h]

/-- Where a skip goes. -/
theorem skipIf_eq (c : Bool) (s : State) : skipIf c s = s.setPc (if c = true then s.nextPc + 2 else s.nextPc) := by
  unfold skipIf
  split <;> rfl

/-- The state in which no key was found: `wait` is set, and pc is where the model of the wait puts it. -/
theorem keyAwaited_eq (s : State) :
    s.keyAwaited = { s with wait := true, pc := match s.params.waitPc with | .refetch => s.pc | .literal => s.nextPc } := by
  unfold State.keyAwaited
  cases s.params.waitPc <;> rfl

/-- The state in which key `k` was found. -/
theorem keyFound_eq (s : State) (x k : Reg) :
    s.keyFound x k = { s with
      wait := false, V := s.V.set x (keyByte k),
      pc := match s.params.waitPc with | .refetch => s.pc + 2 | .literal => s.nextPc } := by
  unfold State.keyFound
  cases s.params.waitPc <;> rfl

end Sys2Proof.Machine
end

