-- ==== Sys2Proof/Laws/PerInstr.lean ====
section
/-! SUPPORT. Per instruction: the word the encoder writes for a well-formed instruction matches that instruction's row of the
opcode table (30_encoding.md R109, R108). -/

namespace Sys2Proof.Laws

open Sys2Proof.Machine

theorem append_and_append {m n : Nat} (a c : BitVec m) (b d : BitVec n) : (a ++ b) &&& (c ++ d) = (a &&& c) ++ (b &&& d) := by
  apply BitVec.eq_of_getLsbD_eq
  intro i hi
  by_cases h : i < n <;> simp [BitVec.getLsbD_append, h]

theorem and_none {n : Nat} (a : BitVec n) : a &&& 0 = 0 := BitVec.and_zero

theorem nibble_and_all (a : Nibble) : a &&& 0xF = a := BitVec.and_allOnes

theorem byte_and_all (a : Byte) : a &&& 0xFF = a := BitVec.and_allOnes

/-- A word with fam and addr, under the mask of its row. -/
theorem wordAddr_and (fam : Nibble) (addr : Addr12) : wordAddr fam addr &&& 0xF000 = fam ++ (0 : BitVec 12) := by
  rw [wordAddr, show (0xF000 : Word) = (0xF : Nibble) ++ (0 : BitVec 12) from rfl, append_and_append,
    and_none, nibble_and_all]

/-- A word with fam, x and kk, under the mask of fam. -/
theorem wordXKk_and (fam : Nibble) (x : Reg) (kk : Byte) :
    wordXKk fam x kk &&& 0xF000 = fam ++ (0 : Nibble) ++ (0 : Byte) := by
  rw [wordXKk, show (0xF000 : Word) = (0xF : Nibble) ++ (0 : Nibble) ++ (0 : Byte) from rfl, append_and_append,
    append_and_append, and_none, and_none, nibble_and_all]

/-- A word with fam, x and kk, under the mask of fam and kk. -/
theorem wordXKk_and_kk (fam : Nibble) (x : Reg) (kk : Byte) : wordXKk fam x kk &&& 0xF0FF = fam ++ (0 : Nibble) ++ kk := by
  rw [wordXKk, show (0xF0FF : Word) = (0xF : Nibble) ++ (0 : Nibble) ++ (0xFF : Byte) from rfl, append_and_append,
    append_and_append, and_none, nibble_and_all, byte_and_all]

/-- A word with fam, x, y and n, under the mask of fam. -/
theorem wordXYN_and (fam : Nibble) (x y : Reg) (n : Nibble) :
    wordXYN fam x y n &&& 0xF000 = fam ++ (0 : Nibble) ++ (0 : Nibble) ++ (0 : Nibble) := by
  rw [wordXYN, show (0xF000 : Word) = (0xF : Nibble) ++ (0 : Nibble) ++ (0 : Nibble) ++ (0 : Nibble) from rfl,
    append_and_append, append_and_append, append_and_append, and_none, and_none, and_none, nibble_and_all]

/-- A word with fam, x, y and n, under the mask of fam and n. -/
theorem wordXYN_and_n (fam : Nibble) (x y : Reg) (n : Nibble) :
    wordXYN fam x y n &&& 0xF00F = fam ++ (0 : Nibble) ++ (0 : Nibble) ++ n := by
  rw [wordXYN, show (0xF00F : Word) = (0xF : Nibble) ++ (0 : Nibble) ++ (0 : Nibble) ++ (0xF : Nibble) from rfl,
    append_and_append, append_and_append, append_and_append, and_none, and_none, nibble_and_all, nibble_and_all]

/-- The mask of families 5 and 9, under the setting that admits n. -/
theorem wordXYN_and_lowNibble (strict : Bool) (fam : Nibble) (x y : Reg) (n : Nibble) (h : nibbleAllowed strict n = true) :
    wordXYN fam x y n &&& lowNibbleMask strict = fam ++ (0 : Nibble) ++ (0 : Nibble) ++ (0 : Nibble) := by
  cases strict with
  | false => exact wordXYN_and fam x y n
  | true =>
    have hn : n = 0 := by simpa [nibbleAllowed] using h
    rw [lowNibbleMask, if_pos rfl, wordXYN_and_n, hn]

namespace EncodeMatchesRow

/-- The word of a well-formed instruction matches the instruction's row. -/
def Statement (i : Instr) : Prop := ∀ strict : Bool, i.wellFormed strict = true → (rowOf strict i).matches (encode i) = true

theorem cls : Statement .cls := fun _ _ => beq_iff_eq.mpr (show (0x00E0 : Word) &&& 0xFFFF = 0x00E0 by decide)
theorem ret : Statement .ret := fun _ _ => beq_iff_eq.mpr (show (0x00EE : Word) &&& 0xFFFF = 0x00EE by decide)
theorem jpAddr (addr : Addr12) : Statement (.jpAddr addr) :=
  fun _ _ => beq_iff_eq.mpr (wordAddr_and _ addr)
theorem callAddr (addr : Addr12) : Statement (.callAddr addr) :=
  fun _ _ => beq_iff_eq.mpr (wordAddr_and _ addr)
theorem seVxKk (x : Reg) (kk : Byte) : Statement (.seVxKk x kk) :=
  fun _ _ => beq_iff_eq.mpr (wordXKk_and _ x kk)
theorem sneVxKk (x : Reg) (kk : Byte) : Statement (.sneVxKk x kk) :=
  fun _ _ => beq_iff_eq.mpr (wordXKk_and _ x kk)
theorem seVxVy (x y : Reg) (n : Nibble) : Statement (.seVxVy x y n) :=
  fun strict h => beq_iff_eq.mpr (wordXYN_and_lowNibble strict _ x y n h)
theorem ldVxKk (x : Reg) (kk : Byte) : Statement (.ldVxKk x kk) :=
  fun _ _ => beq_iff_eq.mpr (wordXKk_and _ x kk)
theorem addVxKk (x : Reg) (kk : Byte) : Statement (.addVxKk x kk) :=
  fun _ _ => beq_iff_eq.mpr (wordXKk_and _ x kk)
theorem ldVxVy (x y : Reg) : Statement (.ldVxVy x y) :=
  fun _ _ => beq_iff_eq.mpr (wordXYN_and_n _ x y _)
theorem orVxVy (x y : Reg) : Statement (.orVxVy x y) :=
  fun _ _ => beq_iff_eq.mpr (wordXYN_and_n _ x y _)
theorem andVxVy (x y : Reg) : Statement (.andVxVy x y) :=
  fun _ _ => beq_iff_eq.mpr (wordXYN_and_n _ x y _)
theorem xorVxVy (x y : Reg) : Statement (.xorVxVy x y) :=
  fun _ _ => beq_iff_eq.mpr (wordXYN_and_n _ x y _)
theorem addVxVy (x y : Reg) : Statement (.addVxVy x y) :=
  fun _ _ => beq_iff_eq.mpr (wordXYN_and_n _ x y _)
theorem subVxVy (x y : Reg) : Statement (.subVxVy x y) :=
  fun _ _ => beq_iff_eq.mpr (wordXYN_and_n _ x y _)
theorem shrVx (x y : Reg) : Statement (.shrVx x y) :=
  fun _ _ => beq_iff_eq.mpr (wordXYN_and_n _ x y _)
theorem subnVxVy (x y : Reg) : Statement (.subnVxVy x y) :=
  fun _ _ => beq_iff_eq.mpr (wordXYN_and_n _ x y _)
theorem shlVx (x y : Reg) : Statement (.shlVx x y) :=
  fun _ _ => beq_iff_eq.mpr (wordXYN_and_n _ x y _)
theorem sneVxVy (x y : Reg) (n : Nibble) : Statement (.sneVxVy x y n) :=
  fun strict h => beq_iff_eq.mpr (wordXYN_and_lowNibble strict _ x y n h)
theorem ldIAddr (addr : Addr12) : Statement (.ldIAddr addr) :=
  fun _ _ => beq_iff_eq.mpr (wordAddr_and _ addr)
theorem jpV0Addr (addr : Addr12) : Statement (.jpV0Addr addr) :=
  fun _ _ => beq_iff_eq.mpr (wordAddr_and _ addr)
theorem rndVxKk (x : Reg) (kk : Byte) : Statement (.rndVxKk x kk) :=
  fun _ _ => beq_iff_eq.mpr (wordXKk_and _ x kk)
theorem drwVxVyN (x y : Reg) (n : Nibble) : Statement (.drwVxVyN x y n) :=
  fun _ _ => beq_iff_eq.mpr (wordXYN_and _ x y n)
theorem skpVx (x : Reg) : Statement (.skpVx x) :=
  fun _ _ => beq_iff_eq.mpr (wordXKk_and_kk _ x _)
theorem sknpVx (x : Reg) : Statement (.sknpVx x) :=
  fun _ _ => beq_iff_eq.mpr (wordXKk_and_kk _ x _)
theorem ldVxDt (x : Reg) : Statement (.ldVxDt x) :=
  fun _ _ => beq_iff_eq.mpr (wordXKk_and_kk _ x _)
theorem ldVxK (x : Reg) : Statement (.ldVxK x) :=
  fun _ _ => beq_iff_eq.mpr (wordXKk_and_kk _ x _)
theorem ldDtVx (x : Reg) : Statement (.ldDtVx x) :=
  fun _ _ => beq_iff_eq.mpr (wordXKk_and_kk _ x _)
theorem ldStVx (x : Reg) : Statement (.ldStVx x) :=
  fun _ _ => beq_iff_eq.mpr (wordXKk_and_kk _ x _)
theorem addIVx (x : Reg) : Statement (.addIVx x) :=
  fun _ _ => beq_iff_eq.mpr (wordXKk_and_kk _ x _)
theorem ldFVx (x : Reg) : Statement (.ldFVx x) :=
  fun _ _ => beq_iff_eq.mpr (wordXKk_and_kk _ x _)
theorem ldBVx (x : Reg) : Statement (.ldBVx x) :=
  fun _ _ => beq_iff_eq.mpr (wordXKk_and_kk _ x _)
theorem ldMemVx (x : Reg) : Statement (.ldMemVx x) :=
  fun _ _ => beq_iff_eq.mpr (wordXKk_and_kk _ x _)
theorem ldVxMem (x : Reg) : Statement (.ldVxMem x) :=
  fun _ _ => beq_iff_eq.mpr (wordXKk_and_kk _ x _)

end EncodeMatchesRow

end Sys2Proof.Laws
end

