-- ==== Sys2Proof/Laws/Transactions.lean ====
section
/-! SUPPORT. Schedules: a finite one in two parts, an infinite one transaction by transaction. -/

namespace Sys2Proof.Machine

@[simp] theorem runSchedule_nil (S : Session) : runSchedule [] S = S := rfl

@[simp] theorem runSchedule_cons (c : HostCall) (cs : List HostCall) (S : Session) :
    runSchedule (c :: cs) S = runSchedule cs (transact c S).2 := rfl

/-- A schedule run in two parts. -/
theorem runSchedule_append (cs ds : List HostCall) (S : Session) :
    runSchedule (cs ++ ds) S = runSchedule ds (runSchedule cs S) := by
  induction cs generalizing S with
  | nil => rfl
  | cons c cs ih => exact ih _

@[simp] theorem sessionAt_zero (calls : Schedule) (S : Session) : sessionAt calls S 0 = S := rfl

@[simp] theorem sessionAt_succ (calls : Schedule) (S : Session) (n : Nat) :
    sessionAt calls S (n + 1) = (transact (calls n) (sessionAt calls S n)).2 := rfl

end Sys2Proof.Machine
end

