-- ==== Sys2Proof/Tests/Slice0.lean ====
section
/-! SUPPORT. Tests: the well-formedness check, decoding of words written out bit by bit from 30_encoding.md R91 and R109, single
steps with the values of 95_test_vectors.md (S<n> of its section 1, otherwise its section 2, by subsection), and for each
statement with hypotheses a state and operands that meet them. -/

namespace Sys2Proof.Tests

open Sys2Proof.Machine

/-- A state with some registers set. -/
def regs (l : List (Reg × Byte)) (s : State) : State := l.foldl (fun t r => t.setReg r.1 r.2) s

/-- A state with some keys held. -/
def held (l : List Reg) (s : State) : State := s.setKeys (Vector.ofFn fun i => l.contains i)

/-- A state under other parameters. -/
def under (p : Params) (s : State) : State := { s with params := p }

/-- What `f` reads in the state that one step of the word `w` at pc leaves; none where the step does not finish. -/
def after {α : Type} (w : Word) (s : State) (f : State → α) : Option α :=
  match step (s.storeWord w) with
  | .next t => some (f t)
  | _ => none

/-- The fault that one step of the word `w` at pc ends in. -/
def faultOf (w : Word) (s : State) : Option Fault :=
  match step (s.storeWord w) with
  | .fault f => some f
  | _ => none

/-- The state after reset. -/
def r : State := State.reset

/-! ### Well-formedness (R108) -/

theorem test_wellFormed_refuses_5xyn : (Instr.seVxVy 1 2 1).wellFormed true = false := by decide
theorem test_wellFormed_refuses_9xyn : (Instr.sneVxVy 1 2 0xF).wellFormed true = false := by decide
theorem test_wellFormed_default_takes_any_nibble :
    (Instr.seVxVy 1 2 1).wellFormed false = true ∧ (Instr.sneVxVy 1 2 0xF).wellFormed false = true := by decide

/-! ### Decoding: the word's bits from R91 and R109 -/

theorem test_decode_display : decode false 0b0000000011100000 = .ok .cls ∧
    decode false 0b1101000100100101 = .ok (.drwVxVyN 1 2 5) := ⟨rfl, rfl⟩

theorem test_decode_control : decode false 0b0000000011101110 = .ok .ret ∧
    decode false 0b0001001000110100 = .ok (.jpAddr 0x234) ∧ decode false 0b0010111111111110 = .ok (.callAddr 0xFFE) ∧
    decode false 0b0011001100010010 = .ok (.seVxKk 3 0x12) ∧ decode false 0b0100001100010011 = .ok (.sneVxKk 3 0x13) ∧
    decode false 0b0101000100100001 = .ok (.seVxVy 1 2 1) ∧ decode false 0b1001000100101111 = .ok (.sneVxVy 1 2 0xF) ∧
    decode false 0b1011001100000000 = .ok (.jpV0Addr 0x300) := ⟨rfl, rfl, rfl, rfl, rfl, rfl, rfl, rfl⟩

theorem test_decode_alu : decode false 0b0110101011111111 = .ok (.ldVxKk 0xA 0xFF) ∧
    decode false 0b0111010000000011 = .ok (.addVxKk 4 0x03) ∧ decode false 0b1000000100100000 = .ok (.ldVxVy 1 2) ∧
    decode false 0b1000000100100001 = .ok (.orVxVy 1 2) ∧ decode false 0b1000000100100010 = .ok (.andVxVy 1 2) ∧
    decode false 0b1000000100100011 = .ok (.xorVxVy 1 2) ∧ decode false 0b1000101010110100 = .ok (.addVxVy 0xA 0xB) ∧
    decode false 0b1000000100100101 = .ok (.subVxVy 1 2) ∧ decode false 0b1000000111110110 = .ok (.shrVx 1 0xF) ∧
    decode false 0b1000000100100111 = .ok (.subnVxVy 1 2) ∧ decode false 0b1000000100101110 = .ok (.shlVx 1 2) ∧
    decode false 0b1100001100001111 = .ok (.rndVxKk 3 0x0F) :=
  ⟨rfl, rfl, rfl, rfl, rfl, rfl, rfl, rfl, rfl, rfl, rfl, rfl⟩

theorem test_decode_index : decode false 0b1010001100000000 = .ok (.ldIAddr 0x300) ∧
    decode false 0b1111001000011110 = .ok (.addIVx 2) ∧ decode false 0b1111001100101001 = .ok (.ldFVx 3) ∧
    decode false 0b1111000000110011 = .ok (.ldBVx 0) ∧ decode false 0b1111001001010101 = .ok (.ldMemVx 2) ∧
    decode false 0b1111000101100101 = .ok (.ldVxMem 1) := ⟨rfl, rfl, rfl, rfl, rfl, rfl⟩

theorem test_decode_keys : decode false 0b1110010110011110 = .ok (.skpVx 5) ∧
    decode false 0b1110010110100001 = .ok (.sknpVx 5) ∧ decode false 0b1111011100000111 = .ok (.ldVxDt 7) ∧
    decode false 0b1111010100001010 = .ok (.ldVxK 5) ∧ decode false 0b1111011000010101 = .ok (.ldDtVx 6) ∧
    decode false 0b1111011000011000 = .ok (.ldStVx 6) := ⟨rfl, rfl, rfl, rfl, rfl, rfl⟩

/-- The rejected words of 95_test_vectors.md 2.2. -/
theorem test_decode_rejects : decode false 0x0000 = .error .family0 ∧ decode false 0x00E1 = .error .family0 ∧
    decode false 0x01EE = .error .family0 ∧ decode false 0x0123 = .error .family0 ∧ decode false 0x8128 = .error .family8 ∧
    decode false 0x812F = .error .family8 ∧ decode false 0xE19F = .error .familyE ∧ decode false 0xE1AE = .error .familyE ∧
    decode false 0xF10B = .error .familyF ∧ decode false 0xFFFF = .error .familyF ∧ decode true 0x5121 = .error .lowNibble ∧
    decode true 0x912F = .error .lowNibble := ⟨rfl, rfl, rfl, rfl, rfl, rfl, rfl, rfl, rfl, rfl, rfl, rfl⟩

/-- The fields of 95_test_vectors.md 2.1. -/
theorem test_fields : famOf 0xD125 = 0xD ∧ xOf 0xD125 = 1 ∧ yOf 0xD125 = 2 ∧ nOf 0xD125 = 5 ∧ kkOf 0xD125 = 0x25 ∧
    addrOf 0xD125 = 0x125 := by decide

theorem test_decodeTableWord : decodeTableWord 16 0x8AB4 = some (.addVxVy 0xA 0xB) ∧ decodeTableWord 16 0xFFFF = none := by
  decide

/-- High byte first (R71). -/
theorem test_fetch_big_endian : (r.storeWord 0x8AB4).mem = [(0x200, 0x8A), (0x201, 0xB4)] := by decide

/-! ### Register arithmetic (2.3) -/

theorem test_ldVxKk : after 0x6AFF r (fun t => (t.reg 0xA, t.pc)) = some (0xFF, 0x202) := by decide
theorem test_addVxKk_wraps_without_flag :
    after 0x7403 (regs [(4, 0xFE), (VF, 0x55)] r) (fun t => (t.reg 4, t.reg VF)) = some (0x01, 0x55) := by decide
theorem test_ldVxVy : after 0x8120 (regs [(2, 0x33)] r) (fun t => t.reg 1) = some 0x33 := by decide
theorem test_orVxVy_keeps_VF :
    after 0x8121 (regs [(1, 0xF0), (2, 0x0F), (VF, 0x07)] r) (fun t => (t.reg 1, t.reg VF)) = some (0xFF, 0x07) := by decide
theorem test_andVxVy : after 0x8122 (regs [(1, 0xF0), (2, 0x3C)] r) (fun t => t.reg 1) = some 0x30 := by decide
theorem test_xorVxVy : after 0x8123 (regs [(1, 0xF0), (2, 0x3C)] r) (fun t => t.reg 1) = some 0xCC := by decide
theorem test_addVxVy_carry : after 0x8124 (regs [(1, 0xC8), (2, 0x64)] r) (fun t => (t.reg 1, t.reg VF)) = some (0x2C, 1) := by
  decide
theorem test_addVxVy_into_VF : after 0x8F14 (regs [(VF, 0x05), (1, 0x01)] r) (fun t => t.reg VF) = some 0 := by decide
theorem test_subVxVy_strict_compare :
    after 0x8125 (regs [(1, 0x40), (2, 0x40)] r) (fun t => (t.reg 1, t.reg VF)) = some (0, 0) ∧
    after 0x8125 (regs [(1, 0x00), (2, 0x01)] r) (fun t => (t.reg 1, t.reg VF)) = some (0xFF, 0) := by decide
theorem test_shrVx_ignores_y :
    after 0x81F6 (regs [(1, 0x02), (VF, 0x07)] r) (fun t => (t.reg 1, t.reg VF)) = some (0x01, 0) := by decide
theorem test_shrVx_bit_out : after 0x8106 (regs [(1, 0x81)] r) (fun t => (t.reg 1, t.reg VF)) = some (0x40, 1) := by decide
theorem test_subnVxVy : after 0x8127 (regs [(1, 0x03), (2, 0x0A)] r) (fun t => (t.reg 1, t.reg VF)) = some (0x07, 1) := by
  decide
theorem test_shlVx_bit_out : after 0x810E (regs [(1, 0x80)] r) (fun t => (t.reg 1, t.reg VF)) = some (0x00, 1) := by decide
theorem test_rndVxKk_masks_the_byte : (rndWith 0xA7 3 0x0F r).reg 3 = 0x07 := by decide
theorem test_rndVxKk_draws_one_byte : after 0xC300 r (fun t => (t.draws, t.pc)) = some (1, 0x202) := by decide

/-- The programs of 2.3 that tell the two settings of `VF_ORDER` apart, at their last step. -/
theorem test_subVxVy_VF_orders :
    after 0x8F15 (regs [(VF, 0x05), (1, 0x01)] r) (fun t => t.reg VF) = some 0x01 ∧
    after 0x81F5 (under { vfOrder := .sequential } (regs [(VF, 0x07), (1, 0x03)] r)) (fun t => (t.reg 1, t.reg VF)) =
      some (0x03, 0x00) := by decide
theorem test_subnVxVy_sequential :
    after 0x8F17 (under { vfOrder := .sequential } (regs [(VF, 0x03), (1, 0x05)] r)) (fun t => t.reg VF) = some 0x04 := by decide
theorem test_shlVx_sequential :
    after 0x8F0E (under { vfOrder := .sequential } (regs [(VF, 0x81)] r)) (fun t => t.reg VF) = some 0x02 := by decide

/-! ### Control flow (2.4) -/

theorem test_jpAddr : after 0x1234 r (fun t => t.pc) = some 0x234 := by decide
theorem test_callAddr : after 0x2300 r (fun t => (t.pc, t.SP.val, t.stack[0])) = some (0x300, 1, 0x202) := by decide
theorem test_callAddr_overflow : faultOf 0x2300 { r with SP := 16 } = some (.stackOverflow 0x200) := by decide
theorem test_ret : after 0x00EE { r with SP := 1, stack := r.stack.set 0 0x202, pc := 0x300 }
    (fun t => (t.pc, t.SP.val, t.stack[0])) = some (0x202, 0, 0x202) := by decide
theorem test_ret_underflow : faultOf 0x00EE r = some (.stackUnderflow 0x200) := by decide
theorem test_seVxKk : after 0x3312 (regs [(3, 0x12)] r) (fun t => t.pc) = some 0x204 ∧
    after 0x3313 (regs [(3, 0x12)] r) (fun t => t.pc) = some 0x202 := by decide
theorem test_seVxKk_wraps : after 0x3000 { r with pc := 0xFFFE } (fun t => t.pc) = some 0x0002 := by decide
theorem test_sneVxKk : after 0x4312 (regs [(3, 0x12)] r) (fun t => t.pc) = some 0x202 ∧
    after 0x4313 (regs [(3, 0x12)] r) (fun t => t.pc) = some 0x204 := by decide
theorem test_seVxVy : after 0x5120 (regs [(1, 0x07), (2, 0x07)] r) (fun t => t.pc) = some 0x204 := by decide
theorem test_seVxVy_strict : faultOf 0x5121 (under { strict59 := true } r) = some (.unknownOpcode 0x5121 0x200) := by decide
theorem test_sneVxVy : after 0x9120 (regs [(1, 0x07), (2, 0x08)] r) (fun t => t.pc) = some 0x204 ∧
    after 0x9110 r (fun t => t.pc) = some 0x202 := by decide
theorem test_jpV0Addr : after 0xB300 (regs [(0, 0x10)] r) (fun t => t.pc) = some 0x310 ∧
    after 0xBFFF (regs [(0, 0xFF)] r) (fun t => t.pc) = some 0x10FE := by decide

/-! ### Display (2.5) -/

theorem test_cls : after 0x00E0 { r with fb := (r.fb.setPixel 0 0 true).setPixel 31 63 true }
    (fun t => (t.cell 0, t.cell 2047)) = some (false, false) := by decide +kernel
theorem test_drw_no_row_and_wrap :
    after 0xD120 (regs [(VF, 0x05)] r) (fun t => (t.reg VF, t.pc)) = some (0, 0x202) ∧
    after 0xD011 (regs [(0, 0x3F)] ({ r with I := 0x300 }.poke 0x300 0x01))
    (fun t => (t.cell 6, t.cell 63, t.reg VF)) = some (true, false, 0) := by decide +kernel
theorem test_drw_collision : after 0xD011 ({ r with I := 0x300, fb := r.fb.setPixel 0 0 true }.poke 0x300 0x80)
    (fun t => (t.cell 0, t.reg VF)) = some (false, 1) := by decide +kernel

/-! ### Index register and memory (2.6) -/

theorem test_ldIAddr : after 0xA300 r (fun t => t.I) = some 0x300 := by decide
theorem test_addIVx : after 0xF21E (regs [(2, 0x02)] { r with I := 0xFFFF }) (fun t => (t.I, t.reg VF)) = some (0x0001, 0) := by
  decide
theorem test_ldFVx : after 0xF329 (regs [(3, 0x0A)] r) (fun t => t.I) = some 0x32 ∧
    after 0xF329 (regs [(3, 0xFF)] r) (fun t => t.I) = some 0x4FB := by decide
theorem test_ldBVx_digits_and_wrap :
    after 0xF033 (regs [(0, 0xFE)] { r with I := 0x300 })
    (fun t => (t.peek 0x300, t.peek 0x301, t.peek 0x302, t.I)) = some (0x02, 0x05, 0x04, 0x300) ∧
    after 0xF033 (regs [(0, 0x0A)] { r with I := 0xFFF })
    (fun t => (t.peek 0xFFF, t.peek 0x000, t.peek 0x001)) = some (0x00, 0x01, 0x00) := by decide
theorem test_ldBVx_fault : faultOf 0xF033 (under { memOob := .fault } { r with I := 0xFFF }) =
    some (.addressRange 0x1000 0x200) := by decide
theorem test_ldMemVx : after 0xF255 (regs [(0, 0x02), (1, 0x05), (2, 0x04), (3, 0x77)] { r with I := 0x304 })
    (fun t => ([t.peek 0x304, t.peek 0x305, t.peek 0x306, t.peek 0x307], t.I)) = some ([0x02, 0x05, 0x04, 0x00], 0x304) := by decide
theorem test_ldVxMem : after 0xF265 (regs [(3, 0x77)] ({ r with I := 0x300 }.pokeBytes 0x300 [0x02, 0x05, 0x04, 0x09]))
    (fun t => ([t.reg 0, t.reg 1, t.reg 2, t.reg 3], t.I)) = some ([0x02, 0x05, 0x04, 0x77], 0x300) := by decide
theorem test_ldVxMem_into_VF : after 0xFF65 ({ r with I := 0x300 }.poke 0x30F 0x09) (fun t => t.reg VF) = some 0x09 := by decide

/-! ### Keys and timers (2.7) -/

theorem test_skpVx : after 0xE59E (regs [(5, 0x07)] (held [7] r)) (fun t => t.pc) = some 0x204 ∧
    after 0xE59E (regs [(5, 0x07)] r) (fun t => t.pc) = some 0x202 := by decide
theorem test_skpVx_fault : faultOf 0xE59E (under { keyOob := .fault } (regs [(5, 0x17)] r)) = some (.keyRange 0x17 0x200) := by
  decide
theorem test_sknpVx : after 0xE5A1 (regs [(5, 0x03)] r) (fun t => t.pc) = some 0x204 ∧
    after 0xE5A1 (regs [(5, 0x17)] (held [7] r)) (fun t => t.pc) = some 0x202 := by decide
theorem test_ldVxK_blocks_then_takes_the_highest :
    after 0xF50A (regs [(5, 0x55)] r) (fun t => (t.wait, t.pc, t.reg 5)) = some (true, 0x200, 0x55) ∧
    after 0xF50A { held [3, 7] r with wait := true } (fun t => (t.wait, t.pc, t.reg 5)) =
    some (false, 0x202, 0x07) := by decide
theorem test_ldVxK_literal : after 0xF50A (under { waitPc := .literal } r) (fun t => (t.wait, t.pc)) = some (true, 0x202) ∧
    after 0x663C (under { waitPc := .literal } { r with wait := true, pc := 0x202 }) (fun t => (t.reg 6, t.pc)) =
      some (0x3C, 0x202) := by decide
theorem test_ldDtVx : after 0xF615 (regs [(6, 0x3C)] r) (fun t => (t.DT, t.ST)) = some (60, 0) := by decide
theorem test_ldStVx : after 0xF618 (regs [(6, 0x05)] r) (fun t => (t.DT, t.ST)) = some (0, 5) := by decide
theorem test_ldVxDt : after 0xF707 { r with DT := 0x3A } (fun t => t.reg 7) = some 0x3A := by decide
theorem test_tick : ({ r with DT := 2 } : State).tickTimers.DT = 1 ∧ r.tickTimers.DT = 0 ∧
    ({ r with ST := 1 } : State).tickTimers.ST = 0 := by decide

/-! ### Fatal outcomes and reset (2.8, S8; 70_reset_and_hazards.md R260) -/

theorem test_empty_program_faults : step r = .fault (.unknownOpcode 0x0000 0x200) := rfl
theorem test_unknown_opcode : faultOf 0xFFFF r = some (.unknownOpcode 0xFFFF 0x200) := by decide
theorem test_fault_codes : (Fault.stackUnderflow 0).code = 1 ∧ (Fault.stackOverflow 0).code = 2 ∧
    (Fault.unknownOpcode 0 0).code = 3 ∧ (Fault.addressRange 0 0).code = 4 ∧ (Fault.keyRange 0 0).code = 5 := by decide
theorem test_faulted_refuses : step { r with faulted := true } = .refused .coreFaulted := rfl
theorem test_font_glyphs : [r.peek 0x000, r.peek 0x04F, r.peek 0x050, r.peek 0x200] = [0xF0, 0x80, 0x00, 0x00] := by decide

/-! ### Witnesses: for each statement with hypotheses, a state and operands that meet them, at the ends of their ranges -/

theorem test_witness_ResetLeavesTheListedValues : defaultResetParams.resetFree = false ∧
    ({ defaultResetParams with resetFree := true } : ResetParams).resetFree = true ∧ 80 ≤ 80 := by decide
theorem test_witness_ByteWriteThenRead : phys 0x1005 = phys 0x0005 ∧ phys 0xFFFF = phys 0x0FFF := by decide
theorem test_witness_MemoryHasOneForm : Mem.wf [(0x000, 0x01), (0xFFF, 0xAB)] = true ∧ Mem.wf [] = true := by decide
theorem test_witness_FetchIsBigEndian : InRange { r with pc := 0xFFFF } 0xFFFF 2 ∧
    InRange (under { memOob := .fault } { r with pc := 0xFFE }) 0xFFE 2 ∧
    ((under { memOob := .fault } { r with pc := 0x1000 }).params.memOob = .fault ∧ 4096 ≤ (0x1000 : Word).toNat) ∧
    ((0xFFF : Word).toNat = 4095) := ⟨.inl rfl, .inr (by decide), by decide, by decide⟩
theorem test_witness_StoredInstructionRuns : r.faulted = false ∧ InRange r r.pc 2 ∧
    (Instr.seVxVy 1 2 0).wellFormed true = true ∧ (Instr.seVxVy 1 2 1).wellFormed r.params.strict59 = true :=
  ⟨rfl, .inl rfl, rfl, rfl⟩
theorem test_witness_DecodeOfEncode : (Instr.sneVxVy 15 15 0).wellFormed true = true ∧
    (Instr.sneVxVy 15 15 0xF).wellFormed false = true := by decide
theorem test_witness_EncodeOfDecode : decode true 0x9FF0 = .ok (.sneVxVy 15 15 0) ∧ decode false 0x9FFF = .ok (.sneVxVy 15 15 15) :=
  ⟨rfl, rfl⟩
theorem test_witness_OpcodeRowsDecideDecoding : decode true 0x5120 = .ok (.seVxVy 1 2 0) ∧ decode true 0x5121 = .error .lowNibble ∧
    (⟨0x00E0, 0xFFFF⟩ : Row) ∈ opcodeRows true ∧ Row.matches ⟨0x00E0, 0xFFFF⟩ 0x00E0 = true := ⟨rfl, rfl, by decide, by decide⟩
theorem test_witness_StepRunsTheDecodedInstruction :
    (r.faulted = false ∧ fetch (r.storeWord 0x00E0) = .ok 0x00E0 ∧ decode r.params.strict59 0x00E0 = .ok .cls) ∧
    (fetch r = .ok 0x0000 ∧ decode r.params.strict59 0x0000 = .error .family0) ∧
    fetch (under { memOob := .fault } { r with pc := 0xFFF }) = .error (.addressRange 0x1000 0xFFF) ∧
    ({ r with faulted := true } : State).faulted = true := ⟨⟨rfl, rfl, rfl⟩, ⟨rfl, rfl⟩, rfl, rfl⟩
theorem test_witness_PcChangesInTheseWaysOnly :
    (∃ t, exec (.jpAddr 0xFFF) r = .next t) ∧ (∃ t, exec (.callAddr 0) r = .next t) ∧ (∃ t, exec (.jpV0Addr 0xFFF) r = .next t) ∧
    (∃ t, exec .ret { r with SP := 16 } = .next t) ∧ (∃ t, exec (.seVxKk 0 0) r = .next t) ∧
    (∃ t, exec (.ldVxK 0) r = .next t ∧ r.params.waitPc = .refetch) ∧
    (∃ t, exec (.ldVxK 0) (under { waitPc := .literal } r) = .next t) ∧ ∃ t, exec .cls { r with wait := true } = .next t :=
  ⟨⟨_, rfl⟩, ⟨_, rfl⟩, ⟨_, rfl⟩, ⟨_, rfl⟩, ⟨_, rfl⟩, ⟨_, rfl, rfl⟩, ⟨_, rfl⟩, ⟨_, rfl⟩⟩
theorem test_witness_InstructionFootprint : ∃ t, exec (.ldMemVx 15) { r with I := 0xFFFF } = .next t := ⟨_, rfl⟩
theorem test_witness_OnlyCallAndReturnUseTheStack : Instr.cls ≠ .ret ∧ ∀ addr, Instr.cls ≠ .callAddr addr :=
  ⟨nofun, fun _ => nofun⟩
theorem test_witness_DisplayAndInputAccess :
    (Instr.ret ≠ .cls ∧ ∀ x y n, Instr.ret ≠ .drwVxVyN x y n) ∧
    ((∀ x, Instr.cls ≠ .skpVx x) ∧ (∀ x, Instr.cls ≠ .sknpVx x) ∧ ∀ x, Instr.cls ≠ .ldVxK x) ∧
    ∃ t, exec .cls (held [15] r) = .next t :=
  ⟨⟨nofun, fun _ _ _ => nofun⟩, ⟨fun _ => nofun, fun _ => nofun, fun _ => nofun⟩, _, rfl⟩
theorem test_witness_TimersCoupleByTheirInstructionsOnly :
    (∀ x, Instr.cls ≠ .ldVxDt x) ∧ (∀ x, Instr.cls ≠ .ldDtVx x) ∧ ∀ x, Instr.cls ≠ .ldStVx x :=
  ⟨fun _ => nofun, fun _ => nofun, fun _ => nofun⟩
theorem test_witness_ExactlyThreeFatalConditions :
    r.params.memOob = .wrap ∧ r.params.keyOob = .wrap ∧ r.faulted = false ∧
    (∃ t, step (r.storeWord 0x1200) = .next t) ∧ faultOf 0x00EE r = some (.stackUnderflow 0x200) ∧
    faultOf 0x2200 { r with SP := 16 } = some (.stackOverflow 0x200) ∧ Session.initial.core = r ∧
    step r = .fault (.unknownOpcode 0 0x200) := ⟨rfl, rfl, rfl, ⟨_, rfl⟩, by decide, by decide, rfl, rfl⟩
theorem test_witness_AddressRangeNamesTheFirstAddress :
    let s := under { memOob := .fault } { r with I := 0xFFF }
    s.params.memOob = .fault ∧ 4096 ≤ (s.I + BitVec.ofNat 16 1).toNat ∧ (∀ j, j < 1 → (s.I + BitVec.ofNat 16 j).toNat < 4096) ∧
      4096 ≤ (({ s with I := 0x1000 } : State).I + BitVec.ofNat 16 0).toNat := by decide
theorem test_witness_FaultedCoreRefusesUntilReset :
    Machine.step Session.initial.core = .fault (.unknownOpcode 0x0000 0x200) ∧
    ({ Session.initial with core := { r with faulted := true } } : Session).core.faulted = true ∧
    ∀ free, HostCall.reset free ∉ [HostCall.step, HostCall.tickTimers] := ⟨rfl, rfl, fun _ => by simp⟩
theorem test_witness_ClearScreen : (0 : Fin 2048).val = 64 * (0 : Fin 32).val + (0 : Fin 64).val ∧
    (2047 : Fin 2048).val = 64 * (31 : Fin 32).val + (63 : Fin 64).val := by decide
theorem test_witness_DrawSprite : InRange { r with I := 0xFFFF } 0xFFFF 15 ∧ r.params.vfOrder = .flagLast ∧
    (under { memOob := .fault, vfOrder := .sequential } { r with I := 0xFF1 }).params.vfOrder = .sequential ∧
    InRange (under { memOob := .fault, vfOrder := .sequential } { r with I := 0xFF1 }) 0xFF1 15 :=
  ⟨.inl rfl, rfl, rfl, .inr (by decide)⟩
/-- The origin (0, 0), at which the second draw starts again. -/
theorem test_witness_DrawTwiceRestores : ∃ t u, exec (.drwVxVyN 0 0 1) r = .next t ∧ exec (.drwVxVyN 0 0 1) t = .next u ∧
    t.drawOrigin 0 0 = r.drawOrigin 0 0 := ⟨_, _, rfl, rfl, by decide +kernel⟩
theorem test_witness_CallPushesTheAdvancedPc : (0 : Fin 16).val = r.SP.val ∧
    (15 : Fin 16).val = ({ r with SP := 15 } : State).SP.val ∧ ({ r with SP := 16 } : State).SP.val = 16 := by decide
theorem test_witness_ReturnPopsIntoPc : (0 : Fin 16).val + 1 = ({ r with SP := 1 } : State).SP.val ∧
    (15 : Fin 16).val + 1 = ({ r with SP := 16 } : State).SP.val ∧ r.SP.val = 0 := by decide
theorem test_witness_ReturnUndoesCall : ∃ t u v, exec (.callAddr 0x300) r = .next t ∧
    (∀ i ∈ [Instr.ldVxKk 0 7, .cls], i ≠ .ret ∧ ∀ a, i ≠ .callAddr a) ∧
    [Instr.ldVxKk 0 7, .cls].foldlM (fun (m : State) i => match exec i m with | .next m' => some m' | _ => none) t = some u ∧
    exec .ret u = .next v := ⟨_, _, _, rfl, by simp, rfl, rfl⟩
theorem test_witness_orders : r.params.vfOrder = .flagLast ∧ (under { vfOrder := .sequential } r).params.vfOrder = .sequential := by
  decide
theorem test_witness_VfOrdersAgree : ((0 : Reg) ≠ VF ∧ (14 : Reg) ≠ VF) ∧ ((15 : Reg) = VF ∧ (15 : Reg) = VF) := by decide
theorem test_witness_SequentialOrderReadsTheFlag :
    let s := regs [(0, 0x81)] (under { vfOrder := .sequential } r)
    s.params.vfOrder = .sequential ∧ (1 : Byte) = (if (s.reg 1).toNat < (s.reg 0).toNat then 1 else 0) ∧
    (0 : Byte) = (if (s.reg 0).toNat < (s.reg 1).toNat then 1 else 0) ∧ (1 : Byte) = (if (s.reg 0).toNat % 2 = 1 then 1 else 0) ∧
    (1 : Byte) = (if 128 ≤ (s.reg 0).toNat then 1 else 0) := by decide
theorem test_witness_StoreBcdDigits : InRange (under { memOob := .fault } { r with I := 0xFFD }) 0xFFD 3 ∧
    InRange { r with I := 0xFFFF } 0xFFFF 3 := ⟨.inr (by decide), .inl rfl⟩
theorem test_witness_StoreAndLoadRegisters : InRange (under { memOob := .fault } { r with I := 0xFF0 }) 0xFF0 16 ∧
    InRange { r with I := 0xFFFF } 0xFFFF 16 := ⟨.inr (by decide), .inl rfl⟩
/-- Between the store and the load, registers are cleared and the byte after the stored ones is written. -/
theorem test_witness_StoreLoadRoundTrip : ∃ t v, exec (.ldMemVx 3) { r with I := 0x400 } = .next t ∧
    exec (.ldVxMem 3) (regs [(0, 0), (3, 0)] (t.poke 0x404 0xFF)) = .next v ∧ (regs [(0, 0), (3, 0)] (t.poke 0x404 0xFF)).I = t.I ∧
    ∀ q : Reg, q ≤ 3 → (regs [(0, 0), (3, 0)] (t.poke 0x404 0xFF)).peek (t.I + BitVec.ofNat 16 q.val) =
      t.peek (t.I + BitVec.ofNat 16 q.val) := ⟨_, _, rfl, rfl, rfl, by decide⟩
theorem test_witness_KeySkipsTestTheKey : (r.params.keyOob = .wrap ∧ (15 : Reg).val = (0xFF : Byte).toNat % 16) ∧
    ((under { keyOob := .fault } (regs [(0, 0x0F)] r)).reg 0).toNat < 16 := by decide
theorem test_witness_KeyRangeStops : let s := under { keyOob := .fault } (regs [(0, 0x10)] r)
    s.params.keyOob = .fault ∧ 16 ≤ (s.reg 0).toNat := by decide
theorem test_witness_WaitForKeyTakesTheHighest : ((held [0] r).key 0 = true ∧ ∀ j, 0 < j → (held [0] r).key j = false) ∧
    ((held [0, 15] r).key 15 = true ∧ ∀ j, 15 < j → (held [0, 15] r).key j = false) ∧ r.params.waitPc = .refetch ∧
    (under { waitPc := .literal } (held [0] r)).params.waitPc = .literal := by decide
theorem test_witness_WaitForKeyBlocks : (∀ j, r.key j = false) ∧ r.params.waitPc = .refetch ∧ r.faulted = false ∧
    fetchInstr (r.storeWord 0xF50A) = .ok (.ldVxK 5) ∧ (under { waitPc := .literal } r).params.waitPc = .literal :=
  ⟨by decide, rfl, rfl, rfl, rfl⟩
theorem test_witness_TimerTick : Session.initial.core.faulted = false ∧ Session.initial.core.DT = 0 ∧
    ({ r with DT := 1, ST := 0xFF } : State).DT ≠ 0 ∧ ({ r with DT := 1, ST := 0xFF } : State).ST ≠ 0 ∧
    ({ r with faulted := true } : State).faulted = true := by decide
theorem test_witness_KeySnapshot : Session.initial.core.faulted = false ∧ (∀ k, HostCall.step ≠ .setKeys k) ∧
    (∀ free, HostCall.step ≠ .reset free) ∧
    ∀ f, (transact .step { Session.initial with core := r.storeWord 0x1200 }).1 ≠ .fault f :=
  ⟨rfl, fun _ => nofun, fun _ => nofun, fun _ => nofun⟩
theorem test_witness_LoadPlacesTheImage : Session.initial.core.faulted = false ∧ Session.initial.booting = true ∧
    (List.replicate 3584 (0 : Byte)).length ≤ 3584 ∧ 3584 < (List.replicate 3585 (0 : Byte)).length ∧
    (0x201 : Word) ≠ 0x200 ∧ ({ Session.initial with booting := false } : Session).booting = false ∧
    HostCall.tickTimers ≠ .step ∧ ∀ free, HostCall.tickTimers ≠ .reset free :=
  ⟨rfl, rfl, Nat.le_of_eq List.length_replicate, Nat.lt_of_lt_of_eq (by decide : 3584 < 3585) List.length_replicate.symm, by decide,
    rfl, nofun, fun _ => nofun⟩
theorem test_witness_SelfJumpIsQuiescent : r.faulted = false ∧ r.wait = false ∧ r.pc = (0x200 : Addr12).setWidth 16 ∧
    fetchInstr (r.storeWord 0x1200) = .ok (.jpAddr 0x200) := ⟨rfl, rfl, rfl, rfl⟩
/-- A state that waits: the invariant's second clause is met by an instruction that is there. -/
theorem test_witness_StepKeepsTheInvariant : Inv { r.storeWord 0xF50A with wait := true } ∧
    ∃ t, step { r.storeWord 0xF50A with wait := true } = .next t := ⟨⟨by decide, fun _ _ => ⟨5, rfl⟩⟩, _, rfl⟩
theorem test_witness_EveryScheduleKeepsTheInvariant : Session.initial.resetParams.resetFree = false ∧ Session.initial.Inv :=
  ⟨rfl, .inr ⟨⟨rfl, nofun⟩, fun _ => rfl⟩⟩

end Sys2Proof.Tests
end

section
/-! PROOFS. The family of 10_state.md. First the rules: the frame of each update of the state, how updates compose, what an
instruction that finishes leaves as its next state, and which instructions see a change of the stack, the timers, the
framebuffer or the keys. Then the obligations, from those rules. -/

namespace Sys2Proof.Machine

/-! ### Composing frames -/

theorem Part.same_trans {s t u : State} {p : Part} (h : p.same s t) (h' : p.same t u) : p.same s u := by
  cases p <;> exact Eq.trans h' h

/-- One update after another changes what the first or the second changes. -/
theorem ChangesOnly.comp {s t u : State} {P Q : Part → Prop} (h : ChangesOnly s t P) (h' : ChangesOnly t u Q) :
    ChangesOnly s u (fun p => P p ∨ Q p) :=
  fun p hp => Part.same_trans (h p fun hP => hp (.inl hP)) (h' p fun hQ => hp (.inr hQ))

/-! ### The frame of each update -/

theorem changesOnly_setPc (s : State) (a : Word) : ChangesOnly s (s.setPc a) (· = .pc) := by
  intro p hp
  cases p with
  | pc => exact absurd rfl hp
  | _ => rfl

theorem changesOnly_advance (s : State) : ChangesOnly s s.advance (· = .pc) := changesOnly_setPc s s.nextPc

theorem changesOnly_setI (s : State) (a : Word) : ChangesOnly s (s.setI a) (· = .index) := by
  intro p hp
  cases p with
  | index => exact absurd rfl hp
  | _ => rfl

theorem changesOnly_DT (s : State) (dt : Byte) : ChangesOnly s { s with DT := dt } (· = .delay) := by
  intro p hp
  cases p with
  | delay => exact absurd rfl hp
  | _ => rfl

theorem changesOnly_ST (s : State) (st : Byte) : ChangesOnly s { s with ST := st } (· = .sound) := by
  intro p hp
  cases p with
  | sound => exact absurd rfl hp
  | _ => rfl

theorem changesOnly_wait (s : State) (w : Bool) : ChangesOnly s { s with wait := w } (· = .wait) := by
  intro p hp
  cases p with
  | wait => exact absurd rfl hp
  | _ => rfl

theorem changesOnly_draws (s : State) (n : Nat) : ChangesOnly s { s with draws := n } (· = .draws) := by
  intro p hp
  cases p with
  | draws => exact absurd rfl hp
  | _ => rfl

theorem changesOnly_SP (s : State) (sp : Fin 17) : ChangesOnly s { s with SP := sp } (· = .sp) := by
  intro p hp
  cases p with
  | sp => exact absurd rfl hp
  | _ => rfl

theorem changesOnly_fb (s : State) (fb : Framebuffer) :
    ChangesOnly s { s with fb := fb } (fun p => ∃ row col, p = .pixel row col) := by
  intro p hp
  cases p with
  | pixel row col => exact absurd ⟨row, col, rfl⟩ hp
  | _ => rfl

/-- A write of one stack slot. -/
theorem changesOnly_stack_set (s : State) (j : Nat) (hj : j < 16) (v : Word) :
    ChangesOnly s { s with stack := s.stack.set j v } (fun p => ∃ k, p = .slot k ∧ k.val = j) := by
  intro p hp
  cases p with
  | slot k => exact Vector.getElem_set_ne hj k.isLt fun e => hp ⟨k, rfl, e.symm⟩
  | _ => rfl

/-- A change of the register file only. -/
theorem changesOnly_of_V {s t : State} {P : Part → Prop} (ht : t = { s with V := t.V })
    (hr : ∀ r, ¬ P (.reg r) → t.reg r = s.reg r) : ChangesOnly s t P := by
  intro p hp
  cases p with
  | reg r => exact hr r hp
  | _ => rw [ht]; rfl

theorem changesOnly_setReg (s : State) (r : Reg) (b : Byte) : ChangesOnly s (s.setReg r b) (· = .reg r) :=
  changesOnly_of_V rfl fun q hq => reg_setReg_ne s r q b fun e => hq (by rw [e])

/-- An alu_unit operation writes V[x], and VF where it has a flag. -/
theorem changesOnly_aluWrite (op : AluOp) (x : Reg) (b : Operand) (rnd : Byte) (s : State) :
    ChangesOnly s (aluWrite op x b rnd s) (fun p => p = .reg x ∨ (p = .reg VF ∧ ∃ a c, aluFlag op a c ≠ none)) := by
  refine changesOnly_of_V (aluWrite_fields op x b rnd s) fun r hr => ?_
  obtain ⟨hx, hv⟩ := not_or.mp hr
  refine aluWrite_reg_ne op x b rnd s r (fun e => hx (by rw [e])) fun e a c => ?_
  exact Decidable.byContradiction fun hflag => hv ⟨by rw [e], a, c, hflag⟩

theorem changesOnly_aluWrite_noFlag {op : AluOp} (hf : ∀ a c, aluFlag op a c = none) (x : Reg) (b : Operand) (rnd : Byte)
    (s : State) : ChangesOnly s (aluWrite op x b rnd s) (· = .reg x) :=
  (changesOnly_aluWrite op x b rnd s).mono fun _ hp => hp.resolve_right fun ⟨_, a, c, hflag⟩ => hflag (hf a c)

/-- A load writes the registers it has a byte for. -/
theorem changesOnly_loadRegs (s : State) (base : Word) (x : Reg) :
    ChangesOnly s { s with V := loadRegs s.V (s.peekBytes base (x.val + 1)) } (fun p => ∃ r, p = .reg r ∧ r ≤ x) := by
  refine changesOnly_of_V rfl fun r hr => ?_
  have habove : ¬ r.val < x.val + 1 := fun h => hr ⟨r, rfl, Nat.le_of_lt_succ h⟩
  exact (loadRegs_getElem _ _ r).trans ((getD_peekBytes _ _ _ _ _).trans (if_neg habove))

/-- A store from `I` on writes the bytes it reaches. -/
theorem changesOnly_pokeBytes (s : State) (bs : List Byte) : ChangesOnly s (s.pokeBytes s.I bs) (atI s bs.length) := by
  intro p hp
  cases p with
  | byte a => exact peek_pokeBytes_ne s s.I a bs fun k hk e => hp ⟨a, k, rfl, hk, e⟩
  | _ => rfl

theorem changesOnly_drawn (s : State) (result : Framebuffer × Bool) :
    ChangesOnly s (s.drawn result) (fun p => p = .reg VF ∨ ∃ row col, p = .pixel row col) :=
  (changesOnly_setReg s VF _).comp (changesOnly_fb _ _)

theorem changesOnly_skipIf (c : Bool) (s : State) : ChangesOnly s (skipIf c s) (· = .pc) := by
  rw [skipIf_eq]
  exact changesOnly_setPc s _

/-- A wait that found a key writes V[x]. -/
theorem changesOnly_keyFound (s : State) (x k : Reg) :
    ChangesOnly s (s.keyFound x k) (fun p => p = .pc ∨ (p = .wait ∨ p = .reg x)) := by
  have hmoved (a : Word) : ChangesOnly s (({ s.setPc a with wait := false } : State).setReg x (keyByte k))
      (fun p => p = .pc ∨ (p = .wait ∨ p = .reg x)) :=
    (changesOnly_setPc s a).comp ((changesOnly_wait _ false).comp (changesOnly_setReg _ x (keyByte k)))
  unfold State.keyFound
  cases s.params.waitPc with
  | refetch => exact hmoved (s.pc + 2)
  | literal => exact hmoved s.nextPc

theorem changesOnly_keyAwaited (s : State) : ChangesOnly s s.keyAwaited (fun p => p = .pc ∨ p = .wait) := by
  unfold State.keyAwaited
  cases s.params.waitPc with
  | refetch => exact (changesOnly_wait s true).mono fun _ => .inr
  | literal => exact (changesOnly_advance s).comp (changesOnly_wait _ true)

/-! ### The next state of an instruction that finishes

For the instructions that may also end in a fatal outcome, and for the wait; every other arm of `exec` is `.next` as it stands. -/

theorem exec_ret_next {s t : State} (h : exec .ret s = .next t) : ∃ hsp : 0 < s.SP.val,
    t = { s with SP := ⟨s.SP.val - 1, by omega⟩, pc := s.stack[s.SP.val - 1]'(by omega) } := by
  by_cases hsp : 0 < s.SP.val
  · rw [exec_ret hsp] at h
    cases h
    exact ⟨hsp, rfl⟩
  · rw [exec_ret_empty (by omega)] at h
    cases h

theorem exec_callAddr_next {s t : State} {addr : Addr12} (h : exec (.callAddr addr) s = .next t) :
    ∃ hsp : s.SP.val < 16, t = { s with
      stack := s.stack.set s.SP.val s.nextPc, SP := ⟨s.SP.val + 1, by omega⟩, pc := zextAddr addr } := by
  by_cases hsp : s.SP.val < 16
  · rw [exec_callAddr addr hsp] at h
    cases h
    exact ⟨hsp, rfl⟩
  · rw [exec_callAddr_full addr (by omega)] at h
    cases h

theorem storeAtI_next {s t : State} {bytes : List Byte} (h : storeAtI bytes s = .next t) :
    t = s.advance.pokeBytes s.I bytes := by
  unfold storeAtI at h
  split at h <;> cases h
  rfl

theorem exec_ldVxMem_next {s t : State} {x : Reg} (h : exec (.ldVxMem x) s = .next t) :
    t = { s.advance with V := loadRegs s.V (s.peekBytes s.I (x.val + 1)) } := by
  simp only [exec, execLdVxMem] at h
  split at h <;> cases h
  rfl

theorem exec_drwVxVyN_next {s t : State} {x y : Reg} {n : Nibble} (h : exec (.drwVxVyN x y n) s = .next t) :
    t = s.advance.drawn (draw (s.drawOrigin x y).1 (s.drawOrigin x y).2 (s.peekBytes s.I n.toNat) s.fb) := by
  simp only [exec, execDrwVxVyN] at h
  split at h <;> cases h
  rfl

theorem exec_skpVx_next {s t : State} {x : Reg} (h : exec (.skpVx x) s = .next t) :
    t = skipIf (s.key (keyIndex (s.reg x))) s := by
  simp only [exec, execSkpVx] at h
  split at h <;> cases h
  rfl

theorem exec_sknpVx_next {s t : State} {x : Reg} (h : exec (.sknpVx x) s = .next t) :
    t = skipIf (!s.key (keyIndex (s.reg x))) s := by
  simp only [exec, execSknpVx] at h
  split at h <;> cases h
  rfl

theorem exec_ldVxK_next {s t : State} {x : Reg} (h : exec (.ldVxK x) s = .next t) :
    (∃ k, s.key k = true ∧ t = s.keyFound x k) ∨ t = s.keyAwaited := by
  cases hk : lastPressed s with
  | some k =>
    rw [exec_ldVxK_found x hk] at h
    cases h
    exact .inl ⟨k, key_of_lastPressed hk, rfl⟩
  | none =>
    rw [exec_ldVxK_none x hk] at h
    cases h
    exact .inr rfl

/-! ### The program counter -/

theorem aluWrite_pc (op : AluOp) (x : Reg) (b : Operand) (rnd : Byte) (s : State) : (aluWrite op x b rnd s).pc = s.pc := by
  rw [aluWrite_fields]

theorem skipIf_pc (c : Bool) (s : State) : (skipIf c s).pc = s.nextPc ∨ (skipIf c s).pc = s.nextPc + 2 := by
  rw [skipIf_eq]
  cases c
  · exact .inl rfl
  · exact .inr rfl

/-- Where Fx0A leaves pc, by the model of the wait and the new input-wait flag (45_keys_timers.md R214). -/
theorem exec_ldVxK_pc {s t : State} {x : Reg} (h : exec (.ldVxK x) s = .next t) :
    t.pc = match s.params.waitPc with
      | .refetch => if t.wait = true then s.pc else s.pc + 2
      | .literal => s.nextPc := by
  obtain ⟨k, -, rfl⟩ | rfl := exec_ldVxK_next h
  · rw [keyFound_eq]
    cases s.params.waitPc <;> rfl
  · rw [keyAwaited_eq]
    cases s.params.waitPc <;> rfl

/-! ### Who sees the stack, the timers, the framebuffer and the keys -/

/-- A change of the parts of the state that few instructions reach; the default of each is no change. -/
structure Overlay where
  stack : Vector Word 16 → Vector Word 16 := id
  SP : Fin 17 → Fin 17 := id
  DT : Byte → Byte := id
  ST : Byte → Byte := id
  fb : Framebuffer → Framebuffer := id
  keys : Vector Bool 16 → Vector Bool 16 := id

/-- The state with that change. -/
def Overlay.apply (o : Overlay) (s : State) : State :=
  { s with stack := o.stack s.stack, SP := o.SP s.SP, DT := o.DT s.DT, ST := o.ST s.ST, fb := o.fb s.fb, keys := o.keys s.keys }

/-- The change leaves alone what the instruction reaches (10_state.md R51-R55, R58; 42_control_flow.md R148). -/
def Overlay.Spares (o : Overlay) : Instr → Prop
  | .ret | .callAddr _ => o.stack = id ∧ o.SP = id
  | .cls | .drwVxVyN _ _ _ => o.fb = id
  | .skpVx _ | .sknpVx _ | .ldVxK _ => o.keys = id
  | .ldVxDt _ | .ldDtVx _ => o.DT = id
  | .ldStVx _ => o.ST = id
  | _ => True

theorem aluWrite_overlay (o : Overlay) (op : AluOp) (x : Reg) (b : Operand) (rnd : Byte) (s : State) :
    aluWrite op x b rnd (o.apply s) = o.apply (aluWrite op x b rnd s) := by
  have horder : (o.apply s).params.vfOrder = s.params.vfOrder := rfl
  unfold aluWrite aluFlagLast aluFlagFirst
  rw [horder]
  cases s.params.vfOrder <;> cases op <;> rfl

theorem aluStep_overlay (o : Overlay) (op : AluOp) (x : Reg) (b : Operand) (s : State) :
    aluStep op x b (o.apply s) = mapNext o.apply (aluStep op x b s) :=
  congrArg Host.Outcome.next (aluWrite_overlay o op x b 0 s.advance)

theorem skipIf_overlay (o : Overlay) (c : Bool) (s : State) : skipIf c (o.apply s) = o.apply (skipIf c s) := by
  cases c <;> rfl

theorem keyFound_overlay (o : Overlay) (s : State) (x k : Reg) : (o.apply s).keyFound x k = o.apply (s.keyFound x k) := by
  rw [keyFound_eq, keyFound_eq]
  rfl

theorem keyAwaited_overlay (o : Overlay) (s : State) : (o.apply s).keyAwaited = o.apply s.keyAwaited := by
  rw [keyAwaited_eq, keyAwaited_eq]
  rfl

@[simp] theorem overlay_I (o : Overlay) (s : State) : (o.apply s).I = s.I := rfl
@[simp] theorem overlay_reg (o : Overlay) (s : State) (r : Reg) : (o.apply s).reg r = s.reg r := rfl
@[simp] theorem overlay_rangeFault (o : Overlay) (s : State) (base : Word) (n : Nat) :
    (o.apply s).rangeFault base n = s.rangeFault base n := rfl
@[simp] theorem overlay_keyFault (o : Overlay) (s : State) (v : Byte) : (o.apply s).keyFault v = s.keyFault v := rfl

theorem overlay_key {o : Overlay} (h : o.keys = id) (s : State) (k : Reg) : (o.apply s).key k = s.key k := by
  simp [State.key, Overlay.apply, h]

theorem lastPressed_overlay {o : Overlay} (h : o.keys = id) (s : State) : lastPressed (o.apply s) = lastPressed s := by
  simp only [lastPressed, overlay_key h]

theorem storeAtI_overlay (o : Overlay) (bytes : List Byte) (s : State) :
    storeAtI bytes (o.apply s) = mapNext o.apply (storeAtI bytes s) := by
  simp only [storeAtI, overlay_I, overlay_rangeFault]
  cases s.rangeFault s.I bytes.length <;> rfl

theorem exec_ret_overlay {o : Overlay} (h : o.stack = id ∧ o.SP = id) (s : State) :
    exec .ret (o.apply s) = mapNext o.apply (exec .ret s) := by
  cases o
  obtain ⟨rfl, rfl⟩ := h
  by_cases hsp : 0 < s.SP.val
  · rw [exec_ret hsp]
    refine exec_ret (s := Overlay.apply _ s) ?_
    exact hsp
  · have hempty : s.SP.val = 0 := by omega
    rw [exec_ret_empty hempty]
    exact exec_ret_empty (s := Overlay.apply _ s) hempty

theorem exec_callAddr_overlay {o : Overlay} (h : o.stack = id ∧ o.SP = id) (addr : Addr12) (s : State) :
    exec (.callAddr addr) (o.apply s) = mapNext o.apply (exec (.callAddr addr) s) := by
  cases o
  obtain ⟨rfl, rfl⟩ := h
  by_cases hsp : s.SP.val < 16
  · rw [exec_callAddr addr hsp]
    refine exec_callAddr (s := Overlay.apply _ s) addr ?_
    exact hsp
  · have hfull : s.SP.val = 16 := by omega
    rw [exec_callAddr_full addr hfull]
    exact exec_callAddr_full (s := Overlay.apply _ s) addr hfull

/-- An instruction does the same under a change of parts that it does not reach, and leaves the change in place. -/
theorem exec_overlay (o : Overlay) (i : Instr) (s : State) (h : o.Spares i) :
    exec i (o.apply s) = mapNext o.apply (exec i s) := by
  cases i with
  | ret => exact exec_ret_overlay h s
  | callAddr addr => exact exec_callAddr_overlay h addr s
  | cls | ldVxDt | ldDtVx | ldStVx => cases o; cases h; rfl
  | drwVxVyN x y n =>
    simp only [exec, execDrwVxVyN, overlay_I, overlay_rangeFault]
    cases s.rangeFault s.I n.toNat with
    | none => cases o; cases h; rfl
    | some f => rfl
  | skpVx x =>
    simp only [exec, execSkpVx, overlay_reg, overlay_keyFault, overlay_key h, skipIf_overlay]
    cases s.keyFault (s.reg x) <;> rfl
  | sknpVx x =>
    simp only [exec, execSknpVx, overlay_reg, overlay_keyFault, overlay_key h, skipIf_overlay]
    cases s.keyFault (s.reg x) <;> rfl
  | ldVxK x =>
    simp only [exec, execLdVxK, lastPressed_overlay h, keyFound_overlay, keyAwaited_overlay]
    cases lastPressed s <;> rfl
  | ldBVx | ldMemVx => exact storeAtI_overlay o _ s
  | ldVxMem x =>
    simp only [exec, execLdVxMem, overlay_I, overlay_rangeFault]
    cases s.rangeFault s.I (x.val + 1) <;> rfl
  | rndVxKk x kk =>
    exact congrArg (fun t : State => Host.Outcome.next { t with draws := s.draws + 1 })
      (aluWrite_overlay o .rnd x (.imm kk) (Config.randomByte s.draws) s.advance)
  | ldVxKk | addVxKk | ldVxVy | orVxVy | andVxVy | xorVxVy | addVxVy | subVxVy | shrVx | subnVxVy | shlVx =>
    exact aluStep_overlay o _ _ _ s
  | seVxKk | sneVxKk | seVxVy | sneVxVy => exact congrArg Host.Outcome.next (skipIf_overlay o _ s)
  | jpAddr | jpV0Addr | ldIAddr | addIVx | ldFVx => rfl

/-- Every instruction but 00E0 and Dxyn spares a change of the framebuffer. -/
theorem spares_fb (f : Framebuffer → Framebuffer) {i : Instr} (hcls : i ≠ .cls) (hdrw : ∀ x y n, i ≠ .drwVxVyN x y n) :
    ({ fb := f } : Overlay).Spares i := by
  cases i with
  | cls => exact absurd rfl hcls
  | drwVxVyN x y n => exact absurd rfl (hdrw x y n)
  | ret | callAddr => exact ⟨rfl, rfl⟩
  | skpVx | sknpVx | ldVxK | ldVxDt | ldDtVx | ldStVx => rfl
  | _ => trivial

/-- Every instruction but Ex9E, ExA1 and Fx0A spares a change of the keys. -/
theorem spares_keys (f : Vector Bool 16 → Vector Bool 16) {i : Instr} (hskp : ∀ x, i ≠ .skpVx x) (hsknp : ∀ x, i ≠ .sknpVx x)
    (hwait : ∀ x, i ≠ .ldVxK x) : ({ keys := f } : Overlay).Spares i := by
  cases i with
  | skpVx x => exact absurd rfl (hskp x)
  | sknpVx x => exact absurd rfl (hsknp x)
  | ldVxK x => exact absurd rfl (hwait x)
  | ret | callAddr => exact ⟨rfl, rfl⟩
  | cls | drwVxVyN | ldVxDt | ldDtVx | ldStVx => rfl
  | _ => trivial

/-! ### The footprint -/

theorem exec_ret_footprint {s t : State} (h : exec .ret s = .next t) :
    ChangesOnly s t (fun p => p = .pc ∨ p = .sp) := by
  obtain ⟨hsp, rfl⟩ := exec_ret_next h
  exact (changesOnly_setPc s (s.stack[s.SP.val - 1]'(by omega))).comp (changesOnly_SP _ ⟨s.SP.val - 1, by omega⟩)

theorem exec_callAddr_footprint {s t : State} {addr : Addr12} (h : exec (.callAddr addr) s = .next t) :
    ChangesOnly s t (fun p => p = .pc ∨ (p = .sp ∨ ∃ k, p = .slot k ∧ k.val = s.SP.val)) := by
  obtain ⟨hsp, rfl⟩ := exec_callAddr_next h
  exact (changesOnly_setPc s (zextAddr addr)).comp
    ((changesOnly_SP _ ⟨s.SP.val + 1, by omega⟩).comp (changesOnly_stack_set _ s.SP.val hsp s.nextPc))

/-- Fx0A writes the input-wait flag, and V[x] where a key is pressed. -/
theorem exec_ldVxK_footprint {s t : State} {x : Reg} (h : exec (.ldVxK x) s = .next t) :
    ChangesOnly s t (fun p => p = .pc ∨ (p = .wait ∨ (p = .reg x ∧ ∃ k, s.key k = true))) := by
  obtain ⟨k, hk, rfl⟩ | rfl := exec_ldVxK_next h
  · exact (changesOnly_keyFound s x k).mono fun _ => Or.imp_right (Or.imp_right fun hx => ⟨hx, k, hk⟩)
  · exact (changesOnly_keyAwaited s).mono fun _ => Or.imp_right .inl

theorem storeAtI_footprint {s t : State} {bytes : List Byte} (h : storeAtI bytes s = .next t) :
    ChangesOnly s t (fun p => p = .pc ∨ atI s bytes.length p) := by
  obtain rfl := storeAtI_next h
  exact (changesOnly_advance s).comp (changesOnly_pokeBytes s.advance bytes)

/-- An instruction that finishes changes only pc and the parts listed for it. -/
theorem exec_footprint {i : Instr} {s t : State} (h : exec i s = .next t) :
    ChangesOnly s t (fun p => p = .pc ∨ mayWrite s i p) := by
  cases i with
  | ret => exact exec_ret_footprint h
  | callAddr => exact exec_callAddr_footprint h
  | jpAddr | jpV0Addr =>
    cases h
    exact (changesOnly_setPc s _).mono fun _ => .inl
  | seVxKk | sneVxKk | seVxVy | sneVxVy =>
    cases h
    exact (changesOnly_skipIf _ s).mono fun _ => .inl
  | skpVx =>
    rw [exec_skpVx_next h]
    exact (changesOnly_skipIf _ s).mono fun _ => .inl
  | sknpVx =>
    rw [exec_sknpVx_next h]
    exact (changesOnly_skipIf _ s).mono fun _ => .inl
  | ldVxKk | addVxKk | ldVxVy | orVxVy | andVxVy | xorVxVy =>
    cases h
    exact (changesOnly_advance s).comp (changesOnly_aluWrite_noFlag (fun _ _ => rfl) _ _ _ _)
  | addVxVy | subVxVy | shrVx | subnVxVy | shlVx =>
    cases h
    exact (changesOnly_advance s).comp ((changesOnly_aluWrite _ _ _ _ _).mono fun _ => Or.imp_right And.left)
  | rndVxKk =>
    cases h
    exact (changesOnly_advance s).comp
      ((changesOnly_aluWrite_noFlag (fun _ _ => rfl) _ _ _ _).comp (changesOnly_draws _ (s.draws + 1)))
  | cls =>
    cases h
    exact (changesOnly_advance s).comp (changesOnly_fb _ clearFramebuffer)
  | drwVxVyN =>
    rw [exec_drwVxVyN_next h]
    exact (changesOnly_advance s).comp (changesOnly_drawn _ _)
  | ldIAddr | addIVx | ldFVx =>
    cases h
    exact (changesOnly_advance s).comp (changesOnly_setI _ _)
  | ldVxDt =>
    cases h
    exact (changesOnly_advance s).comp (changesOnly_setReg _ _ _)
  | ldVxK => exact exec_ldVxK_footprint h
  | ldDtVx x =>
    cases h
    exact (changesOnly_advance s).comp (changesOnly_DT _ (s.reg x))
  | ldStVx x =>
    cases h
    exact (changesOnly_advance s).comp (changesOnly_ST _ (s.reg x))
  | ldBVx x => exact storeAtI_footprint (bytes := bcdDigits (s.reg x)) h
  | ldMemVx x =>
    have hstore := storeAtI_footprint (bytes := s.regsUpTo x) h
    rw [length_regsUpTo] at hstore
    exact hstore
  | ldVxMem x =>
    rw [exec_ldVxMem_next h]
    exact (changesOnly_advance s).comp (changesOnly_loadRegs s.advance s.I x)

theorem not_mayWrite_key (s : State) (i : Instr) (k : Reg) : ¬ mayWrite s i (.key k) := by
  cases i <;> simp [mayWrite, atI]

theorem not_mayWrite_wait (s : State) {i : Instr} (hi : ∀ x, i ≠ .ldVxK x) : ¬ mayWrite s i .wait := by
  cases i with
  | ldVxK x => exact absurd rfl (hi x)
  | _ => simp [mayWrite, atI]

theorem exec_keys {i : Instr} {s t : State} (h : exec i s = .next t) : t.keys = s.keys := by
  apply Vector.ext
  intro k hk
  exact exec_footprint h (.key ⟨k, hk⟩) (not_or.mpr ⟨nofun, not_mayWrite_key s i ⟨k, hk⟩⟩)

theorem exec_wait {i : Instr} {s t : State} (hi : ∀ x, i ≠ .ldVxK x) (h : exec i s = .next t) : t.wait = s.wait :=
  exec_footprint h .wait (not_or.mpr ⟨nofun, not_mayWrite_wait s hi⟩)

/-! ### Memory -/

theorem phys_ofNat {k : Nat} (hk : k < Config.memSize) : phys (BitVec.ofNat 16 k) = k := by
  simp only [phys, Config.memSize, BitVec.toNat_ofNat] at hk ⊢
  omega

theorem inv_reset : Inv State.reset := ⟨rfl, nofun⟩

/-! ### The obligations -/

/-- Settles O13, by the frame of each instruction. -/
theorem instructionFootprint : Obligations.InstructionFootprint := fun _ _ _ h => exec_footprint h

/-- Settles O15: the reads from `exec_overlay`, the writes from the footprint. -/
theorem displayAndInputAccess : Obligations.DisplayAndInputAccess := by
  refine ⟨fun i s fb hcls hdrw => ?_, fun i s keys hskp hsknp hwait => ?_, fun i s t => exec_keys, fun i s t => exec_wait⟩
  · exact exec_overlay { fb := fun _ => fb } i s (spares_fb _ hcls hdrw)
  · exact exec_overlay { keys := fun _ => keys } i s (spares_keys _ hskp hsknp hwait)

/-- Settles O12, by the next state of each instruction. -/
theorem pcChangesInTheseWaysOnly : Obligations.PcChangesInTheseWaysOnly := by
  refine ⟨fun _ => rfl, fun i s t h => ?_, fun _ _ _ => ⟨rfl, rfl, rfl⟩⟩
  cases i with
  | jpAddr | jpV0Addr => cases h; rfl
  | callAddr => obtain ⟨-, rfl⟩ := exec_callAddr_next h; rfl
  | ret =>
    obtain ⟨hsp, rfl⟩ := exec_ret_next h
    exact ⟨⟨s.SP.val - 1, by omega⟩, Nat.sub_add_cancel hsp, rfl⟩
  | seVxKk | sneVxKk | seVxVy | sneVxVy => cases h; exact skipIf_pc _ s
  | skpVx => rw [exec_skpVx_next h]; exact skipIf_pc _ s
  | sknpVx => rw [exec_sknpVx_next h]; exact skipIf_pc _ s
  | ldVxK =>
    have hpc := exec_ldVxK_pc h
    exact ⟨fun hm => by simpa [hm] using hpc, fun hm => by simpa [hm] using hpc⟩
  | ldVxKk | addVxKk | ldVxVy | orVxVy | andVxVy | xorVxVy | addVxVy | subVxVy | shrVx | subnVxVy | shlVx | rndVxKk =>
    cases h; exact aluWrite_pc _ _ _ _ s.advance
  | drwVxVyN => rw [exec_drwVxVyN_next h]; rfl
  | ldBVx | ldMemVx => rw [storeAtI_next h]; rfl
  | ldVxMem => rw [exec_ldVxMem_next h]; rfl
  | cls | ldIAddr | addIVx | ldFVx | ldVxDt | ldDtVx | ldStVx => cases h; rfl

/-- Settles O4, from the laws of the memory list. -/
theorem memoryHasOneForm : Obligations.MemoryHasOneForm := by
  refine ⟨fun m a v h => wf_write v h (phys_lt a), fun m base bytes h => wf_writeBytes base bytes h, fun m m' h h' hr => ?_⟩
  refine eq_of_read_eq h h' fun k hk => ?_
  simpa only [phys_ofNat hk] using hr (BitVec.ofNat 16 k)

/-- Settles O2: at reset memory lists nothing, and the CORE does not wait. -/
theorem resetMeetsTheInvariant : Obligations.ResetMeetsTheInvariant := ⟨inv_reset, .inr ⟨inv_reset, fun _ => rfl⟩⟩

end Sys2Proof.Machine
end

section
/-! PROOFS. The family of 20_memory.md. First the rules: the frame of a store, where a program image lies, the fetch out of
range, the decoder on an encoded instruction, the step of a fetched instruction, and the time for loading. Then the
obligations, from those rules. -/

namespace Sys2Proof.Machine

/-! ### The frame of a store -/

/-- A change of memory only. -/
theorem changesOnly_of_mem {s t : State} {P : Part → Prop} (ht : t = { s with mem := t.mem })
    (hb : ∀ a, ¬ P (.byte a) → t.peek a = s.peek a) : ChangesOnly s t P := by
  intro p hp
  cases p with
  | byte a => exact hb a hp
  | _ => rw [ht]; rfl

theorem changesOnly_poke (s : State) (a : Word) (v : Byte) :
    ChangesOnly s (s.poke a v) (fun p => ∃ b, p = .byte b ∧ phys b = phys a) :=
  changesOnly_of_mem rfl fun b hb => (peek_poke s a b v).trans (if_neg fun e => hb ⟨b, rfl, e⟩)

/-! ### The program image -/

/-- Byte `j` of an image stands at its own physical address: no address of the image wraps (20_memory.md R84). -/
theorem phys_programBase_add {j : Nat} (hj : j < Config.maxImage) :
    phys (Config.programBase + BitVec.ofNat 16 j) = 0x200 + j := by
  have hbase : Config.programBase.toNat = 0x200 := rfl
  simp only [phys, Config.maxImage, Config.memSize, BitVec.toNat_add, BitVec.toNat_ofNat, hbase] at hj ⊢
  omega

theorem read_loadImage (s : State) {image : List Byte} (hlen : image.length ≤ Config.maxImage) {j : Nat}
    (hj : j < image.length) : (s.loadImage image).mem.read (0x200 + j) = image[j] := by
  rw [← phys_programBase_add (Nat.lt_of_lt_of_le hj hlen)]
  exact read_writeBytes s.mem Config.programBase image (Nat.le_trans hlen (by decide)) j hj

theorem changesOnly_loadImage (s : State) {image : List Byte} (hlen : image.length ≤ Config.maxImage) :
    ChangesOnly s (s.loadImage image) (fun p => ∃ a, p = .byte a ∧ 0x200 ≤ phys a ∧ phys a < 0x200 + image.length) := by
  refine changesOnly_of_mem rfl fun a ha => ?_
  refine peek_pokeBytes_ne s Config.programBase a image fun k hk e => ha ⟨a, rfl, ?_⟩
  rw [phys_programBase_add (Nat.lt_of_lt_of_le hk hlen)] at e
  omega

/-! ### The fetch and the step -/

theorem fetch_rangeFault {s : State} {f : Fault} (h : s.rangeFault s.pc 2 = some f) : fetch s = .error f := by
  simp [fetch, h]

/-- Decoding the word of a well-formed instruction gives the instruction back (30_encoding.md R109). -/
theorem decode_encode {strict : Bool} {i : Instr} (h : i.wellFormed strict = true) : decode strict (encode i) = .ok i := by
  cases i with
  | cls => exact decode_fam0 strict rfl
  | ret => exact decode_fam0 strict rfl
  | seVxVy x y n | sneVxVy x y n =>
    have hn : nibbleAllowed strict n = true := h
    simp [encode, decode, decodeLowNibble, hn]
  | ldVxVy | orVxVy | andVxVy | xorVxVy | addVxVy | subVxVy | shrVx | subnVxVy | shlVx =>
    simp [encode, decode_fam8, decodeFamily8]
  | skpVx | sknpVx => simp [encode, decode_famE, decodeFamilyE]
  | ldVxDt | ldVxK | ldDtVx | ldStVx | addIVx | ldFVx | ldBVx | ldMemVx | ldVxMem =>
    simp [encode, decode_famF, decodeFamilyF]
  | jpAddr | callAddr | ldIAddr | jpV0Addr | seVxKk | sneVxKk | ldVxKk | addVxKk | rndVxKk | drwVxVyN =>
    simp [encode, decode]

theorem fetchInstr_ok {s : State} {w : Word} {i : Instr} (hw : fetch s = .ok w) (hi : decode s.params.strict59 w = .ok i) :
    fetchInstr s = .ok i := by
  simp [fetchInstr, hw, hi]

theorem step_eq_exec {s : State} {i : Instr} (hs : s.faulted = false) (hi : fetchInstr s = .ok i) : step s = exec i s := by
  simp [step, hs, hi]

/-! ### No instruction is refused -/

theorem outcome_ne_refused (e : Except Fault State) (r : Refusal) : outcome e ≠ .refused r := by
  cases e <;> nofun

theorem storeAtI_ne_refused (bytes : List Byte) (s : State) (r : Refusal) : storeAtI bytes s ≠ .refused r := by
  unfold storeAtI
  split <;> nofun

theorem exec_ne_refused (i : Instr) (s : State) (r : Refusal) : exec i s ≠ .refused r := by
  cases i with
  | ret | callAddr => exact outcome_ne_refused _ r
  | ldBVx | ldMemVx => exact storeAtI_ne_refused _ s r
  | drwVxVyN | ldVxMem | skpVx | sknpVx | ldVxK =>
    simp only [exec, execDrwVxVyN, execLdVxMem, execSkpVx, execSknpVx, execLdVxK]
    split <;> nofun
  | _ => nofun

/-- Only a faulted CORE refuses a step (60_exceptions.md R231). -/
theorem step_ne_refused {s : State} (hs : s.faulted = false) (r : Refusal) : step s ≠ .refused r := by
  cases hi : fetchInstr s with
  | error f => simp [step, hs, hi, raise]
  | ok i =>
    rw [step_eq_exec hs hi]
    exact exec_ne_refused i s r

/-! ### Loading and its time -/

/-- When `load` is admitted (20_memory.md R84, D22). -/
theorem loadRefusal_eq_none {S : Session} {image : List Byte} {base : Word} : S.loadRefusal image base = none ↔
    S.core.faulted = false ∧ base = Config.programBase ∧ image.length ≤ Config.maxImage ∧ S.booting = true := by
  unfold Session.loadRefusal
  split
  next hfaulted => exact iff_of_false nofun fun ⟨hf, _⟩ => by simp [hf] at hfaulted
  next hfaulted =>
    split
    next hbase => exact iff_of_false nofun fun ⟨_, hb, _⟩ => hbase hb
    next hbase =>
      split
      next hlen => exact iff_of_false nofun fun ⟨_, _, hl, _⟩ => Nat.not_lt.mpr hl hlen
      next hlen =>
        cases hboot : S.booting with
        | false => exact iff_of_false nofun fun ⟨_, _, _, hb⟩ => nomatch hb
        | true =>
          exact iff_of_true rfl
            ⟨(Bool.not_eq_true _).mp hfaulted, Decidable.not_not.mp hbase, Nat.not_lt.mp hlen, rfl⟩

theorem transact_load_admitted {S : Session} {image : List Byte} {base : Word} (h : S.loadRefusal image base = none) :
    transact (.load image base) S = (.ok, { S with core := S.core.loadImage image }) := by
  simp [transact, h]

theorem transact_load_refused {S : Session} {image : List Byte} {base : Word} (h : S.loadRefusal image base ≠ none) :
    ∃ r, transact (.load image base) S = (.refused r, S) := by
  obtain ⟨r, hr⟩ := Option.ne_none_iff_exists'.mp h
  exact ⟨r, by simp [transact, hr]⟩

/-- A step of a CORE that is not faulted ends the time for loading, whether it finishes or is fatal. -/
theorem transact_step_booting {S : Session} (hS : S.core.faulted = false) : (transact .step S).2.booting = false := by
  cases hstep : step S.core with
  | next t => simp [transact, hstep]
  | fault f => simp [transact, hstep, Session.fail]
  | refused r => exact absurd hstep (step_ne_refused hS r)

/-- Only a step and a reset reach the time for loading (70_reset_and_hazards.md R261). -/
theorem transact_booting {c : HostCall} (S : Session) (hstep : c ≠ .step) (hreset : ∀ free, c ≠ .reset free) :
    (transact c S).2.booting = S.booting := by
  cases c with
  | step => exact absurd rfl hstep
  | reset free => exact absurd rfl (hreset free)
  | load image base => simp only [transact]; split <;> rfl
  | tickTimers => simp only [transact]; split <;> rfl
  | setKeys k => simp only [transact]; split <;> rfl

/-! ### The obligations -/

/-- Settles O3, by the frame of a store and the read after it. -/
theorem byteWriteThenRead : Obligations.ByteWriteThenRead := fun s a v =>
  ⟨peek_poke_self s a v, rfl, changesOnly_poke s a v, fun b hb => (peek_poke s a b v).trans (if_pos hb)⟩

/-- Settles O6: what is stored at pc is fetched, and decodes to the instruction it encodes. -/
theorem storedInstructionRuns : Obligations.StoredInstructionRuns := fun s i hs hrange hi =>
  step_eq_exec (s := s.storeWord (encode i)) hs (fetchInstr_ok (fetch_storeWord (encode i) hrange) (decode_encode hi))

/-- Settles O49: when `load` is admitted, where the image stands, and which transactions reach the time for loading. -/
theorem loadPlacesTheImage : Obligations.LoadPlacesTheImage := by
  refine ⟨fun S image hS hboot hlen => ?_, fun S image base hbad => ?_, fun S => transact_step_booting, fun _ _ => rfl,
    fun c S => transact_booting S⟩
  · have hadmit : S.loadRefusal image 0x200 = none := loadRefusal_eq_none.mpr ⟨hS, rfl, hlen, hboot⟩
    exact ⟨S.core.loadImage image, transact_load_admitted hadmit, fun j hj => read_loadImage S.core hlen hj,
      changesOnly_loadImage S.core hlen⟩
  · refine transact_load_refused fun hadmit => ?_
    obtain ⟨hS, hbase, hlen, hboot⟩ := loadRefusal_eq_none.mp hadmit
    rcases hbad with hb | hb | hb | hb
    · exact hb hbase
    · exact Nat.not_lt.mpr hlen hb
    · simp [hboot] at hb
    · simp [hS] at hb

/-- Settles O5: the word of the two bytes where they are in range, and else the first address that is not. -/
theorem fetchIsBigEndian : Obligations.FetchIsBigEndian := by
  refine ⟨fun s hrange => ⟨_, fetch_inRange hrange, toNat_wordOfBytes _ _⟩, fun s hf hpc => ?_, fun s hf hpc => ?_⟩
  · have hfirst := rangeFault_first (base := s.pc) (n := 2) (k := 0) hf (by decide) (by simpa using hpc) nofun
    exact fetch_rangeFault (by simpa using hfirst)
  · have hnext : s.pc + BitVec.ofNat 16 1 = 0x1000 :=
      BitVec.eq_of_toNat_eq (by simp [BitVec.toNat_add, hpc])
    have hfirst := rangeFault_first (base := s.pc) (n := 2) (k := 1) hf (by decide) (by simp [hnext])
      fun j hj => by simp [Nat.lt_one_iff.mp hj, hpc]
    rw [hnext] at hfirst
    exact fetch_rangeFault hfirst

end Sys2Proof.Machine
end

section
/-! PROOFS. The family of 30_encoding.md. First the rules: a word whose family is known, assembled from its fields; a word that
decodes, and its row; a word that matches a row, and what it decodes to; the fetch and the step that are fatal. Then the
obligations, from those rules. -/

namespace Sys2Proof.Machine

/-! ### A word that decodes -/

theorem wordXYN_of_famOf {w : Word} {fam : Nibble} (h : famOf w = fam) : wordXYN fam (xOf w) (yOf w) (nOf w) = w :=
  h ▸ wordXYN_fields w

theorem wordXKk_of_famOf {w : Word} {fam : Nibble} (h : famOf w = fam) : wordXKk fam (xOf w) (kkOf w) = w :=
  h ▸ wordXKk_fields w

theorem wordAddr_of_famOf {w : Word} {fam : Nibble} (h : famOf w = fam) : wordAddr fam (addrOf w) = w :=
  h ▸ wordAddr_fields w

/-- A word that decodes is the word of its instruction (30_encoding.md R111): each family keeps every field of the word. -/
theorem encode_of_decode {strict : Bool} {w : Word} {i : Instr} (h : decode strict w = .ok i) :
    encode i = w ∧ i.wellFormed strict = true := by
  rcases nibble_cases (famOf w) with hf | hf | hf | hf | hf | hf | hf | hf | hf | hf | hf | hf | hf | hf | hf | hf
  · obtain ⟨henc, hwf⟩ := decodeFamily0_ok ((decode_fam0 strict hf).symm.trans h)
    exact ⟨henc, hwf strict⟩
  · cases (decode_fam1 strict hf).symm.trans h
    exact ⟨wordAddr_of_famOf hf, rfl⟩
  · cases (decode_fam2 strict hf).symm.trans h
    exact ⟨wordAddr_of_famOf hf, rfl⟩
  · cases (decode_fam3 strict hf).symm.trans h
    exact ⟨wordXKk_of_famOf hf, rfl⟩
  · cases (decode_fam4 strict hf).symm.trans h
    exact ⟨wordXKk_of_famOf hf, rfl⟩
  · obtain ⟨rfl, hn⟩ := decodeLowNibble_ok ((decode_fam5 strict hf).symm.trans h)
    exact ⟨wordXYN_of_famOf hf, hn⟩
  · cases (decode_fam6 strict hf).symm.trans h
    exact ⟨wordXKk_of_famOf hf, rfl⟩
  · cases (decode_fam7 strict hf).symm.trans h
    exact ⟨wordXKk_of_famOf hf, rfl⟩
  · obtain ⟨henc, hwf⟩ := decodeFamily8_ok ((decode_fam8 strict hf).symm.trans h)
    exact ⟨henc.trans (wordXYN_of_famOf hf), hwf strict⟩
  · obtain ⟨rfl, hn⟩ := decodeLowNibble_ok ((decode_fam9 strict hf).symm.trans h)
    exact ⟨wordXYN_of_famOf hf, hn⟩
  · cases (decode_famA strict hf).symm.trans h
    exact ⟨wordAddr_of_famOf hf, rfl⟩
  · cases (decode_famB strict hf).symm.trans h
    exact ⟨wordAddr_of_famOf hf, rfl⟩
  · cases (decode_famC strict hf).symm.trans h
    exact ⟨wordXKk_of_famOf hf, rfl⟩
  · cases (decode_famD strict hf).symm.trans h
    exact ⟨wordXYN_of_famOf hf, rfl⟩
  · obtain ⟨henc, hwf⟩ := decodeFamilyE_ok ((decode_famE strict hf).symm.trans h)
    exact ⟨henc.trans (wordXKk_of_famOf hf), hwf strict⟩
  · obtain ⟨henc, hwf⟩ := decodeFamilyF_ok ((decode_famF strict hf).symm.trans h)
    exact ⟨henc.trans (wordXKk_of_famOf hf), hwf strict⟩

/-- The word of a well-formed instruction matches the instruction's row. -/
theorem encode_matches_rowOf (i : Instr) : Laws.EncodeMatchesRow.Statement i :=
  open Laws.EncodeMatchesRow in
  match i with
  | .cls => cls
  | .ret => ret
  | .jpAddr addr => jpAddr addr
  | .callAddr addr => callAddr addr
  | .seVxKk x kk => seVxKk x kk
  | .sneVxKk x kk => sneVxKk x kk
  | .seVxVy x y n => seVxVy x y n
  | .ldVxKk x kk => ldVxKk x kk
  | .addVxKk x kk => addVxKk x kk
  | .ldVxVy x y => ldVxVy x y
  | .orVxVy x y => orVxVy x y
  | .andVxVy x y => andVxVy x y
  | .xorVxVy x y => xorVxVy x y
  | .addVxVy x y => addVxVy x y
  | .subVxVy x y => subVxVy x y
  | .shrVx x y => shrVx x y
  | .subnVxVy x y => subnVxVy x y
  | .shlVx x y => shlVx x y
  | .sneVxVy x y n => sneVxVy x y n
  | .ldIAddr addr => ldIAddr addr
  | .jpV0Addr addr => jpV0Addr addr
  | .rndVxKk x kk => rndVxKk x kk
  | .drwVxVyN x y n => drwVxVyN x y n
  | .skpVx x => skpVx x
  | .sknpVx x => sknpVx x
  | .ldVxDt x => ldVxDt x
  | .ldVxK x => ldVxK x
  | .ldDtVx x => ldDtVx x
  | .ldStVx x => ldStVx x
  | .addIVx x => addIVx x
  | .ldFVx x => ldFVx x
  | .ldBVx x => ldBVx x
  | .ldMemVx x => ldMemVx x
  | .ldVxMem x => ldVxMem x

theorem matches_of_decode {strict : Bool} {w : Word} {i : Instr} (h : decode strict w = .ok i) :
    (rowOf strict i).matches w = true := by
  obtain ⟨rfl, hwf⟩ := encode_of_decode h
  exact encode_matches_rowOf i strict hwf

/-! ### A word that matches a row -/

/-- One instruction per row of the table of R109, in its order. -/
def rowInstrs : List Instr :=
  [.cls, .ret, .jpAddr 0, .callAddr 0, .seVxKk 0 0, .sneVxKk 0 0, .seVxVy 0 0 0, .ldVxKk 0 0, .addVxKk 0 0, .ldVxVy 0 0,
    .orVxVy 0 0, .andVxVy 0 0, .xorVxVy 0 0, .addVxVy 0 0, .subVxVy 0 0, .shrVx 0 0, .subnVxVy 0 0, .shlVx 0 0, .sneVxVy 0 0 0,
    .ldIAddr 0, .jpV0Addr 0, .rndVxKk 0 0, .drwVxVyN 0 0 0, .skpVx 0, .sknpVx 0, .ldVxDt 0, .ldVxK 0, .ldDtVx 0, .ldStVx 0,
    .addIVx 0, .ldFVx 0, .ldBVx 0, .ldMemVx 0, .ldVxMem 0]

theorem opcodeRows_eq_map (strict : Bool) : opcodeRows strict = rowInstrs.map (rowOf strict) := rfl

theorem rowOf_mem_opcodeRows (strict : Bool) (i : Instr) : rowOf strict i ∈ opcodeRows strict := by
  cases i <;> simp [rowOf, opcodeRows]

section FieldsOfMatches
variable {p m w : Word} (h : Row.matches ⟨p, m⟩ w = true)
include h

theorem and_eq_of_matches : w &&& m = p := eq_of_beq h

/-- A row whose mask covers the family field fixes the family. -/
theorem famOf_of_matches (hm : famOf m = 0xF) : famOf w = famOf p := by
  have hand : famOf (w &&& m) = famOf w &&& famOf m := BitVec.extractLsb'_and
  rw [← and_eq_of_matches h, hand, hm, Laws.nibble_and_all]

theorem nOf_of_matches (hm : nOf m = 0xF) : nOf w = nOf p := by
  have hand : nOf (w &&& m) = nOf w &&& nOf m := BitVec.extractLsb'_and
  rw [← and_eq_of_matches h, hand, hm, Laws.nibble_and_all]

theorem kkOf_of_matches (hm : kkOf m = 0xFF) : kkOf w = kkOf p := by
  have hand : kkOf (w &&& m) = kkOf w &&& kkOf m := BitVec.extractLsb'_and
  rw [← and_eq_of_matches h, hand, hm, Laws.byte_and_all]

/-- A row whose mask covers the whole word is matched by its pattern only. -/
theorem eq_pattern_of_matches (hm : m = 0xFFFF) : w = p := by
  rw [← and_eq_of_matches h, hm]; exact BitVec.and_allOnes.symm

end FieldsOfMatches

theorem famOf_lowNibbleMask (strict : Bool) : famOf (lowNibbleMask strict) = 0xF := by
  cases strict <;> rfl

/-- The rows of families 5 and 9 match an admitted low nibble only (R108). -/
theorem nibbleAllowed_of_matches {strict : Bool} {p w : Word} (h : Row.matches ⟨p, lowNibbleMask strict⟩ w = true)
    (hp : nOf p = 0) : nibbleAllowed strict (nOf w) = true := by
  cases strict with
  | false => rfl
  | true => rw [nOf_of_matches h rfl, hp]; rfl

/-- A word that matches a row decodes to an instruction of that row: the mask fixes every field that the decoder selects by. -/
theorem decode_of_matches_rowOf {strict : Bool} {w : Word} {i : Instr} (h : (rowOf strict i).matches w = true) :
    (decode strict w).map (rowOf strict) = .ok (rowOf strict i) := by
  cases i with
  | cls | ret =>
    obtain rfl := eq_pattern_of_matches h rfl
    rfl
  | seVxVy =>
    rw [decode_fam5 strict (famOf_of_matches h (famOf_lowNibbleMask strict)), decodeLowNibble,
      if_pos (nibbleAllowed_of_matches h rfl)]
    rfl
  | sneVxVy =>
    rw [decode_fam9 strict (famOf_of_matches h (famOf_lowNibbleMask strict)), decodeLowNibble,
      if_pos (nibbleAllowed_of_matches h rfl)]
    rfl
  | ldVxVy | orVxVy | andVxVy | xorVxVy | addVxVy | subVxVy | shrVx | subnVxVy | shlVx =>
    rw [decode_fam8 strict (famOf_of_matches h rfl), nOf_of_matches h rfl]
    rfl
  | skpVx | sknpVx =>
    rw [decode_famE strict (famOf_of_matches h rfl), kkOf_of_matches h rfl]
    rfl
  | ldVxDt | ldVxK | ldDtVx | ldStVx | addIVx | ldFVx | ldBVx | ldMemVx | ldVxMem =>
    rw [decode_famF strict (famOf_of_matches h rfl), kkOf_of_matches h rfl]
    rfl
  | jpAddr | callAddr | ldIAddr | jpV0Addr | seVxKk | sneVxKk | ldVxKk | addVxKk | rndVxKk | drwVxVyN =>
    rw [decode, famOf_of_matches h rfl]
    rfl

theorem decode_of_matches {strict : Bool} {w : Word} {r : Row} (hr : r ∈ opcodeRows strict) (h : r.matches w = true) :
    (decode strict w).map (rowOf strict) = .ok r := by
  rw [opcodeRows_eq_map] at hr
  obtain ⟨i, -, rfl⟩ := List.mem_map.mp hr
  exact decode_of_matches_rowOf h

/-- A word is rejected exactly if it matches no row (30_encoding.md R109, R110). -/
theorem decode_error_iff {strict : Bool} {w : Word} :
    (∃ e, decode strict w = .error e) ↔ ∀ r ∈ opcodeRows strict, r.matches w = false := by
  constructor
  · rintro ⟨e, he⟩ r hr
    refine Bool.eq_false_iff.mpr fun h => ?_
    have hd := decode_of_matches hr h
    rw [he] at hd
    cases hd
  · intro hnone
    cases hd : decode strict w with
    | error e => exact ⟨e, rfl⟩
    | ok i => exact absurd (matches_of_decode hd) (by simp [hnone _ (rowOf_mem_opcodeRows strict i)])

/-- No two rows match one word: it decodes to an instruction of each. -/
theorem row_unique {strict : Bool} {w : Word} {r r' : Row} (hr : r ∈ opcodeRows strict) (hr' : r' ∈ opcodeRows strict)
    (h : r.matches w = true) (h' : r'.matches w = true) : r = r' :=
  Except.ok.inj ((decode_of_matches hr h).symm.trans (decode_of_matches hr' h'))

/-! ### The fatal outcomes of the fetch -/

theorem fetchInstr_rejected {s : State} {w : Word} {e : DecodeError} (hw : fetch s = .ok w)
    (he : decode s.params.strict59 w = .error e) : fetchInstr s = .error (.unknownOpcode w s.pc) := by
  simp [fetchInstr, hw, he]

theorem fetchInstr_fault {s : State} {f : Fault} (hf : fetch s = .error f) : fetchInstr s = .error f := by
  simp [fetchInstr, hf]

theorem step_eq_fault {s : State} {f : Fault} (hs : s.faulted = false) (hf : fetchInstr s = .error f) :
    step s = .fault f := by
  simp [step, hs, hf, raise]

theorem step_of_faulted {s : State} (hs : s.faulted = true) : step s = .refused .coreFaulted := by
  simp [step, hs]

/-! ### The obligations -/

/-- Settles O8, by the decoder on the word of each instruction. -/
theorem decodeOfEncode : Obligations.DecodeOfEncode := fun _ _ => decode_encode

/-- Settles O9, by the sixteen families. -/
theorem encodeOfDecode : Obligations.EncodeOfDecode := fun _ _ _ => encode_of_decode

/-- Settles O10: what decodes matches its row, and what matches a row decodes to an instruction of that row. -/
theorem opcodeRowsDecideDecoding : Obligations.OpcodeRowsDecideDecoding := fun strict =>
  ⟨fun _ i h => ⟨matches_of_decode h, rowOf_mem_opcodeRows strict i⟩, fun _ => decode_error_iff,
    fun _ _ hr _ hr' => row_unique hr hr'⟩

/-- Settles O7, by running the decoder on each word. -/
theorem tableWordsDecode : Obligations.TableWordsDecode := ⟨rfl, rfl, rfl, rfl, rfl, rfl, rfl, rfl, rfl, rfl, rfl, rfl⟩

/-- Settles O11: the step after each outcome of the fetch. -/
theorem stepRunsTheDecodedInstruction : Obligations.StepRunsTheDecodedInstruction :=
  ⟨fun _ _ _ hs hw hi => step_eq_exec hs (fetchInstr_ok hw hi),
    fun _ _ _ hs hw he => step_eq_fault hs (fetchInstr_rejected hw he),
    fun _ _ hs hf => step_eq_fault hs (fetchInstr_fault hf),
    fun _ => step_of_faulted⟩

end Sys2Proof.Machine
end

section
/-! PROOFS. The family of 41_display.md. First the rules: the cells after a clear and the host's numbering of them; what a Dxyn
that finishes leaves in the framebuffer and in VF, in terms of the cells its sprite reaches; and that it leaves the sprite
itself. Then the obligations, from those rules. -/

namespace Sys2Proof.Machine

/-! ### Cells -/

theorem pixel_clearFramebuffer (row : Fin 32) (col : Fin 64) : clearFramebuffer.pixel row col = false := by
  simp [clearFramebuffer, Framebuffer.pixel]

/-- The host's cell `64*row + col` is the pixel at that row and column (10_state.md R55). -/
theorem cell_eq_pixel (s : State) {row : Fin 32} {col : Fin 64} {k : Fin 2048} (hk : k.val = 64 * row.val + col.val) :
    s.cell k = s.fb.pixel row col := by
  have hrow : (⟨k.val / 64, by omega⟩ : Fin 32) = row := Fin.ext (by simp only; omega)
  have hcol : (⟨k.val % 64, Nat.mod_lt _ (by decide)⟩ : Fin 64) = col := Fin.ext (by simp only; omega)
  rw [State.cell, hrow, hcol]

/-! ### The flag of a draw -/

theorem flagByte_eq_one {c : Bool} : flagByte c = 1 ↔ c = true := by
  cases c <;> decide

@[simp] theorem drawn_reg_VF (s : State) (result : Framebuffer × Bool) : (s.drawn result).reg VF = flagByte result.2 :=
  reg_setReg_self s VF _

/-! ### A Dxyn that finishes -/

theorem drawOrigin_flagLast {s : State} (h : s.params.vfOrder = .flagLast) (x y : Reg) :
    s.drawOrigin x y = (s.reg x, s.reg y) := by
  simp [State.drawOrigin, h]

/-- VF is reset before the origin is read (43_alu.md R163). -/
theorem drawOrigin_sequential {s : State} (h : s.params.vfOrder = .sequential) (x y : Reg) :
    s.drawOrigin x y = (if x = VF then 0 else s.reg x, if y = VF then 0 else s.reg y) := by
  simp [State.drawOrigin, h, reg_setReg]

section FinishedDraw
variable {s t : State} {x y : Reg} {n : Nibble} {ox oy : Byte} (h : exec (.drwVxVyN x y n) s = .next t)
include h

/-- The composite of the sprite rows at `I`, at most 15 of them, in terms of the cells they reach (41_display.md R121). -/
theorem exec_drwVxVyN_spec (ho : s.drawOrigin x y = (ox, oy)) :
    (∀ row col, SpriteReaches s ox oy n row col → t.fb.pixel row col = !s.fb.pixel row col) ∧
    (∀ row col, ¬ SpriteReaches s ox oy n row col → t.fb.pixel row col = s.fb.pixel row col) ∧
    ∃ collision, t.reg VF = flagByte collision ∧
      (collision = true ↔ ∃ row col, SpriteReaches s ox oy n row col ∧ s.fb.pixel row col = true) := by
  have hlen : (s.peekBytes s.I n.toNat).length ≤ 32 := by
    have := n.isLt
    simp only [State.peekBytes, List.length_map, length_addresses]
    omega
  obtain ⟨hflip, hkeep, hcol⟩ := draw_spec ox oy _ hlen s.fb
  simp only [reaches_peekBytes] at hflip hkeep hcol
  rw [exec_drwVxVyN_next h, ho]
  exact ⟨hflip, hkeep, _, drawn_reg_VF _ _, hcol⟩

theorem exec_drwVxVyN_I : t.I = s.I :=
  exec_footprint h .index (by simp [mayWrite])

theorem exec_drwVxVyN_peek (a : Word) : t.peek a = s.peek a :=
  exec_footprint h (.byte a) (by simp [mayWrite])

/-- A draw leaves the sprite as it was: the next draw from the same origin reaches the same cells. -/
theorem spriteReaches_exec_drwVxVyN {row : Fin 32} {col : Fin 64} :
    SpriteReaches t ox oy n row col ↔ SpriteReaches s ox oy n row col := by
  simp only [SpriteReaches, exec_drwVxVyN_I h, exec_drwVxVyN_peek h]

end FinishedDraw

/-! ### The obligations -/

/-- Settles O22: the draw finishes where its rows are in range, and leaves what `exec_drwVxVyN_spec` says. -/
theorem drawSprite : Obligations.DrawSprite := by
  intro s x y n ox oy hrange hlast hseq
  have ho : s.drawOrigin x y = (ox, oy) := by
    cases hv : s.params.vfOrder with
    | flagLast =>
      obtain ⟨rfl, rfl⟩ := hlast hv
      exact drawOrigin_flagLast hv x y
    | sequential =>
      obtain ⟨rfl, rfl⟩ := hseq hv
      exact drawOrigin_sequential hv x y
  have h := exec_drwVxVyN x y hrange
  obtain ⟨hflip, hkeep, collision, hVF, hcol⟩ := exec_drwVxVyN_spec h ho
  refine ⟨_, h, hflip, hkeep, fun hset => ?_, fun hclear => ?_, rfl, exec_footprint h⟩
  · rw [hVF, hcol.mpr hset]
    rfl
  · have hnone : collision = false := Bool.eq_false_iff.mpr fun hc => by
      obtain ⟨row, col, hr, hset⟩ := hcol.mp hc
      simp [hclear row col hr] at hset
    rw [hVF, hnone]
    rfl

/-- Settles O23: the second draw flips back what the first flipped, and finds set what was clear at first. -/
theorem drawTwiceRestores : Obligations.DrawTwiceRestores := by
  intro s t u x y n hst htu horigin
  obtain ⟨hflip, hkeep, -⟩ := exec_drwVxVyN_spec hst rfl
  obtain ⟨hflip', hkeep', collision, hVF, hcol⟩ := exec_drwVxVyN_spec htu horigin
  simp only [spriteReaches_exec_drwVxVyN hst] at hflip' hkeep' hcol
  refine ⟨framebuffer_ext fun row col => ?_, ?_⟩
  · by_cases hr : SpriteReaches s (s.drawOrigin x y).1 (s.drawOrigin x y).2 n row col
    · rw [hflip' row col hr, hflip row col hr, Bool.not_not]
    · rw [hkeep' row col hr, hkeep row col hr]
  · rw [hVF, flagByte_eq_one, hcol]
    refine exists_congr fun row => exists_congr fun col => and_congr_right fun hr => ?_
    rw [hflip row col hr, Bool.not_eq_true']

/-- Settles O21: the cleared framebuffer, the frame of 00E0, and the host's numbering of the cells. -/
theorem clearScreen : Obligations.ClearScreen :=
  ⟨fun s => ⟨{ s.advance with fb := clearFramebuffer }, rfl, fun _ => pixel_clearFramebuffer _ _, rfl,
    exec_footprint (i := .cls) rfl⟩, fun s _ _ _ => cell_eq_pixel s⟩

end Sys2Proof.Machine
end

section
/-! PROOFS. The family of 42_control_flow.md. First the rules: the values of the jump targets, where a compare skip goes, and what
an instruction, and then a run of instructions, that is no call and no return does to the stack. Then the obligations, from
those rules. -/

namespace Sys2Proof.Machine

/-! ### Targets -/

@[simp] theorem toNat_zextAddr (addr : Addr12) : (zextAddr addr).toNat = addr.toNat :=
  BitVec.toNat_setWidth_of_le (by decide)

@[simp] theorem toNat_zextByte (v : Byte) : (zextByte v).toNat = v.toNat :=
  BitVec.toNat_setWidth_of_le (by decide)

/-- The target of Bnnn is at most 0x10FE, so its sum does not wrap (R147). -/
theorem toNat_zextAddr_add_zextByte (addr : Addr12) (v : Byte) :
    (zextAddr addr + zextByte v).toNat = addr.toNat + v.toNat := by
  have haddr := addr.isLt
  have hv := v.isLt
  have hsum : (zextAddr addr).toNat + (zextByte v).toNat < 2 ^ 16 := by
    rw [toNat_zextAddr, toNat_zextByte]
    omega
  rw [BitVec.toNat_add_of_lt hsum, toNat_zextAddr, toNat_zextByte]

/-! ### Compares -/

theorem eqBytes_eq_true {p q : Byte} : eqBytes p q = true ↔ p = q := beq_iff_eq

theorem not_eqBytes_eq_true {p q : Byte} : (!eqBytes p q) = true ↔ ¬ p = q := by
  rw [Bool.not_eq_true', Bool.eq_false_iff, Ne, eqBytes_eq_true]

theorem skipIf_eqBytes_pc (p q : Byte) (s : State) :
    (skipIf (eqBytes p q) s).pc = if p = q then s.nextPc + 2 else s.nextPc := by
  rw [skipIf_eq]
  simp only [setPc_pc, eqBytes_eq_true]

theorem skipIf_not_eqBytes_pc (p q : Byte) (s : State) :
    (skipIf (!eqBytes p q) s).pc = if p = q then s.nextPc else s.nextPc + 2 := by
  rw [skipIf_eq]
  simp only [setPc_pc, not_eqBytes_eq_true, ite_not]

/-! ### Who reaches the stack -/

/-- Every instruction but 2nnn and 00EE spares a change of the stack and SP (R148). -/
theorem spares_stack (f : Vector Word 16 → Vector Word 16) (g : Fin 17 → Fin 17) {i : Instr} (hret : i ≠ .ret)
    (hcall : ∀ addr, i ≠ .callAddr addr) : ({ stack := f, SP := g } : Overlay).Spares i := by
  cases i with
  | ret => exact absurd rfl hret
  | callAddr addr => exact absurd rfl (hcall addr)
  | cls | drwVxVyN | skpVx | sknpVx | ldVxK | ldVxDt | ldDtVx | ldStVx => rfl
  | _ => trivial

/-- Running under the stack that is there already puts that stack back, so it was not written. -/
theorem exec_stack_SP {i : Instr} {s t : State} (hret : i ≠ .ret) (hcall : ∀ addr, i ≠ .callAddr addr)
    (h : exec i s = .next t) : t.stack = s.stack ∧ t.SP = s.SP := by
  have hback : exec i s = mapNext (fun u => { u with stack := s.stack, SP := s.SP }) (exec i s) :=
    exec_overlay { stack := fun _ => s.stack, SP := fun _ => s.SP } i s (spares_stack _ _ hret hcall)
  rw [h] at hback
  injection hback with ht
  exact ⟨(congrArg State.stack ht :), (congrArg State.SP ht :)⟩

/-- A run of such instructions, by any function that answers a state only where `exec` does, keeps the stack and SP. -/
theorem foldlM_stack_SP {run : State → Instr → Option State} (hrun : ∀ m i m', run m i = some m' → exec i m = .next m')
    {body : List Instr} (hbody : ∀ i ∈ body, i ≠ .ret ∧ ∀ addr, i ≠ .callAddr addr) {t u : State}
    (h : body.foldlM run t = some u) : u.stack = t.stack ∧ u.SP = t.SP := by
  induction body generalizing t with
  | nil =>
    cases h
    exact ⟨rfl, rfl⟩
  | cons i is ih =>
    rw [List.foldlM_cons] at h
    obtain ⟨m, hm, hrest⟩ := Option.bind_eq_some_iff.mp h
    obtain ⟨⟨hret, hcall⟩, his⟩ := List.forall_mem_cons.mp hbody
    obtain ⟨hstack, hSP⟩ := exec_stack_SP hret hcall (hrun t i m hm)
    obtain ⟨hstack', hSP'⟩ := ih his hrest
    exact ⟨hstack'.trans hstack, hSP'.trans hSP⟩

/-- The return from the stack that the call left: the slot it pops is the one the call pushed, and SP is back. -/
theorem exec_ret_of_callAddr {addr : Addr12} {s t u v : State} (hcall : exec (.callAddr addr) s = .next t)
    (hstack : u.stack = t.stack) (hSP : u.SP = t.SP) (hret : exec .ret u = .next v) : v.pc = s.nextPc ∧ v.SP = s.SP := by
  obtain ⟨hsp, rfl⟩ := exec_callAddr_next hcall
  obtain ⟨_, rfl⟩ := exec_ret_next hret
  simp [hstack, hSP]

/-! ### The obligations -/

/-- Settles O14, from `exec_overlay`. -/
theorem onlyCallAndReturnUseTheStack : Obligations.OnlyCallAndReturnUseTheStack := fun i s stack sp hret hcall =>
  exec_overlay { stack := fun _ => stack, SP := fun _ => sp } i s (spares_stack _ _ hret hcall)

/-- Settles O27: the body keeps the stack that the call left, and the return pops it. -/
theorem returnUndoesCall : Obligations.ReturnUndoesCall := by
  intro addr s t u v body hcall hbody hrun hret
  obtain ⟨hstack, hSP⟩ : u.stack = t.stack ∧ u.SP = t.SP := by
    refine foldlM_stack_SP (fun m i m' hm => ?_) hbody hrun
    split at hm
    · next hexec => exact hexec.trans (congrArg Host.Outcome.next (Option.some.inj hm))
    · cases hm
  exact exec_ret_of_callAddr hcall hstack hSP hret

/-- Settles O24, by the values of the targets. -/
theorem jumpTargets : Obligations.JumpTargets := fun addr s =>
  ⟨⟨_, rfl, toNat_zextAddr addr, changesOnly_setPc s _⟩,
    ⟨_, rfl, toNat_zextAddr_add_zextByte addr (s.reg 0), changesOnly_setPc s _⟩⟩

/-- Settles O25, by the outcome of a call on each side of SP = 16 and its footprint. -/
theorem callPushesTheAdvancedPc : Obligations.CallPushesTheAdvancedPc := by
  refine fun addr s => ⟨fun k hk => ?_, exec_callAddr_full addr⟩
  have h := exec_callAddr addr (hk ▸ k.isLt)
  refine ⟨_, h, ?_, rfl, toNat_zextAddr addr, (exec_callAddr_footprint h).mono fun p => ?_⟩
  · simp [hk, State.nextPc]
  · rintro (hpc | hsp | ⟨j, rfl, hj⟩)
    · exact .inl hpc
    · exact .inr (.inl hsp)
    · exact .inr (.inr (congrArg Part.slot (Fin.ext (hj.trans hk.symm))))

/-- Settles O26, by the outcome of a return on each side of SP = 0 and its footprint. -/
theorem returnPopsIntoPc : Obligations.ReturnPopsIntoPc := by
  refine fun s => ⟨fun k hk => ?_, exec_ret_empty⟩
  have h := exec_ret (s := s) (by omega)
  exact ⟨_, h, by simp [← hk], by simp [← hk], exec_ret_footprint h⟩

/-- Settles O28: each skip goes where its compare says, and changes only pc. -/
theorem skipsCompareAndAdvance : Obligations.SkipsCompareAndAdvance := fun s _ _ _ _ =>
  ⟨⟨_, rfl, skipIf_eqBytes_pc _ _ s, changesOnly_skipIf _ s⟩,
    ⟨_, rfl, skipIf_not_eqBytes_pc _ _ s, changesOnly_skipIf _ s⟩,
    ⟨_, rfl, skipIf_eqBytes_pc _ _ s, changesOnly_skipIf _ s⟩,
    ⟨_, rfl, skipIf_not_eqBytes_pc _ _ s, changesOnly_skipIf _ s⟩⟩

end Sys2Proof.Machine
end

section
/-! PROOFS. The family of 43_alu.md. First the rules: the table of the alu_unit in unsigned arithmetic; what an operation without
a flag, with its flag last and with its flag first leaves in the registers; and which instructions do not see `VF_ORDER`. Then
the obligations, from those rules. -/

namespace Sys2Proof.Machine

/-! ### The table of R161 in unsigned arithmetic -/

theorem toNat_sub_byte (a b : Byte) : (a - b).toNat = (a.toNat + 256 - b.toNat) % 256 := by
  have hb := b.isLt
  rw [BitVec.toNat_sub]
  omega

theorem toNat_aluResult_shr (a b rnd : Byte) : (aluResult .shr a b rnd).toNat = a.toNat / 2 := by
  simp [aluResult, Nat.shiftRight_eq_div_pow]

theorem toNat_aluResult_shl (a b rnd : Byte) : (aluResult .shl a b rnd).toNat = 2 * a.toNat % 256 := by
  simp [aluResult, Nat.shiftLeft_eq, Nat.mul_comm]

theorem aluFlag_shr (a b : Byte) : aluFlag .shr a b = some (decide (a.toNat % 2 = 1)) :=
  congrArg some (Nat.testBit_zero a.toNat)

theorem aluFlag_shl (a b : Byte) : aluFlag .shl a b = some (decide (128 ≤ a.toNat)) :=
  congrArg some (BitVec.msb_eq_decide a)

theorem flagByte_decide (p : Prop) [Decidable p] : flagByte (decide p) = if p then 1 else 0 := by
  simp [flagByte]

/-! ### What an operation leaves in the registers -/

@[simp] theorem advance_operand (s : State) (b : Operand) : s.advance.operand b = s.operand b := by
  cases b <;> rfl

/-- An operation without a flag finishes, and writes V[x]. -/
theorem aluStep_noFlag {op : AluOp} (hop : flagFirst op = false) (hf : ∀ a c, aluFlag op a c = none) (x : Reg) (b : Operand)
    (s : State) : ∃ t, aluStep op x b s = .next t ∧ t.reg x = aluResult op (s.reg x) (s.operand b) 0 ∧ t.pc = s.nextPc ∧
      ChangesOnly s t (fun p => p = .pc ∨ p = .reg x) := by
  refine ⟨_, rfl, ?_, aluWrite_pc op x b 0 s.advance,
    (changesOnly_advance s).comp (changesOnly_aluWrite_noFlag hf x b 0 s.advance)⟩
  rw [aluWrite_noFlag hop hf, reg_setReg_self, advance_operand, advance_reg]

/-- The frame of an operation with a flag. -/
theorem changesOnly_aluStep (op : AluOp) (x : Reg) (b : Operand) (s : State) :
    ChangesOnly s (aluWrite op x b 0 s.advance) (fun p => p = .pc ∨ p = .reg x ∨ p = .reg VF) :=
  (changesOnly_advance s).comp ((changesOnly_aluWrite op x b 0 s.advance).mono fun _ => Or.imp_right And.left)

/-- The condition `p` of the flag, and the value `n` of the result, are those of the operands before the step. -/
theorem aluStep_flagLast {op : AluOp} {x : Reg} {b : Operand} {s : State} {p : Prop} [Decidable p] {n : Nat}
    (horder : s.params.vfOrder = .flagLast ∨ flagFirst op = false)
    (hf : aluFlag op (s.reg x) (s.operand b) = some (decide p)) (hr : (aluResult op (s.reg x) (s.operand b) 0).toNat = n) :
    ∃ t, aluStep op x b s = .next t ∧ t.reg VF = (if p then 1 else 0) ∧ (x ≠ VF → (t.reg x).toNat = n) ∧
      t.pc = s.nextPc ∧ ChangesOnly s t (fun p => p = .pc ∨ p = .reg x ∨ p = .reg VF) := by
  have ht : aluWrite op x b 0 s.advance =
      (s.advance.setReg x (aluResult op (s.reg x) (s.operand b) 0)).setReg VF (flagByte (decide p)) := by
    rw [aluWrite_flagLast (s := s.advance) horder, aluFlagLast, advance_operand, advance_reg, hf, writeFlag_some]
  refine ⟨_, rfl, ?_, fun hx => ?_, aluWrite_pc op x b 0 s.advance, changesOnly_aluStep op x b s⟩
  · rw [ht, reg_setReg_self, flagByte_decide]
  · rw [ht, reg_setReg_ne _ _ _ _ hx, reg_setReg_self, hr]

/-- The operands of the result are read where VF already holds the flag (R163). -/
theorem aluStep_flagFirst {op : AluOp} {x y : Reg} {s : State} {p : Prop} [Decidable p] {flag : Byte}
    (horder : s.params.vfOrder = .sequential) (hop : flagFirst op = true)
    (hf : aluFlag op (s.reg x) (s.reg y) = some (decide p)) (hflag : flag = if p then 1 else 0) :
    ∃ t, aluStep op x (.reg y) s = .next t ∧
      t.reg x = aluResult op (if x = VF then flag else s.reg x) (if y = VF then flag else s.reg y) 0 ∧
      (x ≠ VF → t.reg VF = flag) ∧
      t.pc = s.nextPc ∧ ChangesOnly s t (fun p => p = .pc ∨ p = .reg x ∨ p = .reg VF) := by
  have ht : aluWrite op x (.reg y) 0 s.advance = (s.advance.setReg VF flag).setReg x
      (aluResult op ((s.advance.setReg VF flag).reg x) ((s.advance.setReg VF flag).reg y) 0) := by
    rw [aluWrite_flagFirst (s := s.advance) horder hop, hflag, ← flagByte_decide p]
    simp only [aluFlagFirst, operand_reg, advance_reg, hf, writeFlag_some]
  refine ⟨_, rfl, ?_, fun hx => ?_, aluWrite_pc op x (.reg y) 0 s.advance, changesOnly_aluStep op x (.reg y) s⟩
  · simp only [ht, reg_setReg, advance_reg, if_true]
  · rw [ht, reg_setReg_ne _ _ _ _ hx.symm, reg_setReg_self]

/-- Cxkk with the drawn byte `rnd` masks it by kk. -/
theorem rndWith_reg (rnd : Byte) (x : Reg) (kk : Byte) (s : State) : (rndWith rnd x kk s).reg x = rnd &&& kk := by
  have hmask : (aluWrite .rnd x (.imm kk) rnd s.advance).reg x = rnd &&& kk := by
    rw [aluWrite_noFlag rfl (fun _ _ => rfl), reg_setReg_self]
    rfl
  exact hmask

/-! ### When the two orders agree -/

theorem setReg_setReg_self (s : State) (r : Reg) (b c : Byte) : (s.setReg r b).setReg r c = s.setReg r c := by
  simp [State.setReg]

theorem setReg_comm (s : State) {r q : Reg} (h : r ≠ q) (b c : Byte) :
    (s.setReg r b).setReg q c = (s.setReg q c).setReg r b := by
  simp only [State.setReg, Vector.set_comm _ _ (Fin.val_ne_of_ne h)]

/-- The two orders agree where VF is not V[x] and the result does not depend on VF. -/
theorem aluFlagFirst_eq_flagLast {op : AluOp} {x : Reg} {b : Operand} {rnd : Byte} {s : State} (hx : x ≠ VF)
    (hb : ∀ f, aluResult op (s.reg x) ((s.setReg VF f).operand b) rnd = aluResult op (s.reg x) (s.operand b) rnd) :
    aluFlagFirst op x b rnd s = aluFlagLast op x b rnd s := by
  unfold aluFlagFirst aluFlagLast
  cases aluFlag op (s.reg x) (s.operand b) with
  | none => rfl
  | some f => simp only [writeFlag_some, reg_setReg_ne _ _ _ _ hx, hb, setReg_comm _ hx]

/-- VF less itself: the flag and the difference are both 0. -/
theorem aluFlagFirst_eq_flagLast_VF {op : AluOp} (hop : op = .sub ∨ op = .subn) (rnd : Byte) (s : State) :
    aluFlagFirst op VF (.reg VF) rnd s = aluFlagLast op VF (.reg VF) rnd s := by
  have hsame : aluFlag op (s.reg VF) (s.reg VF) = some false ∧ ∀ a, aluResult op a a rnd = 0 := by
    rcases hop with rfl | rfl <;> simp [aluFlag, greaterFlag, aluResult]
  obtain ⟨hflag, hresult⟩ := hsame
  simp only [aluFlagFirst, aluFlagLast, operand_reg, hflag, writeFlag_some, hresult, setReg_setReg_self]
  rfl

theorem aluWrite_of_agree {op : AluOp} {x : Reg} {b : Operand} {rnd : Byte} {s : State}
    (h : aluFlagFirst op x b rnd s = aluFlagLast op x b rnd s) : aluWrite op x b rnd s = aluFlagLast op x b rnd s := by
  unfold aluWrite
  cases s.params.vfOrder with
  | flagLast => rfl
  | sequential => simp only [h, ite_self]

theorem drawOrigin_ne {s : State} {x y : Reg} (hx : x ≠ VF) (hy : y ≠ VF) : s.drawOrigin x y = (s.reg x, s.reg y) := by
  cases h : s.params.vfOrder with
  | flagLast => exact drawOrigin_flagLast h x y
  | sequential => rw [drawOrigin_sequential h, if_neg hx, if_neg hy]

/-! ### Who sees the order -/

/-- The settings with another order. -/
def withOrder (p : Params) (o : VfOrder) : Params := { p with vfOrder := o }

/-- The state under other settings. -/
def State.withParams (s : State) (p : Params) : State := { s with params := p }

@[simp] theorem withParams_I (s : State) (p : Params) : (s.withParams p).I = s.I := rfl
@[simp] theorem withParams_reg (s : State) (p : Params) (r : Reg) : (s.withParams p).reg r = s.reg r := rfl
@[simp] theorem withParams_lastPressed (s : State) (p : Params) : lastPressed (s.withParams p) = lastPressed s := rfl

/-- The forms of an instruction in which the two orders agree (R163). -/
def OrderFree : Instr → Prop
  | .subVxVy x y | .subnVxVy x y => (x ≠ VF ∧ y ≠ VF) ∨ (x = VF ∧ y = VF)
  | .shrVx x _ | .shlVx x _ => x ≠ VF
  | .drwVxVyN x y _ => x ≠ VF ∧ y ≠ VF
  | _ => True

theorem aluFlagLast_withParams (op : AluOp) (x : Reg) (b : Operand) (rnd : Byte) (s : State) (p : Params) :
    aluFlagLast op x b rnd (s.withParams p) = (aluFlagLast op x b rnd s).withParams p := by
  cases op <;> rfl

/-- An operation whose flag may always come last sees no settings. -/
theorem aluStep_withParams {op : AluOp} {x : Reg} {b : Operand} (h : ∀ s, aluWrite op x b 0 s = aluFlagLast op x b 0 s)
    (s : State) (p : Params) : aluStep op x b (s.withParams p) = mapNext (·.withParams p) (aluStep op x b s) := by
  simp only [aluStep, mapNext, h]
  exact congrArg Host.Outcome.next (aluFlagLast_withParams op x b 0 s.advance p)

theorem aluWrite_sub_of_orderFree {op : AluOp} (hop : op = .sub ∨ op = .subn) {x y : Reg}
    (h : (x ≠ VF ∧ y ≠ VF) ∨ (x = VF ∧ y = VF)) (s : State) :
    aluWrite op x (.reg y) 0 s = aluFlagLast op x (.reg y) 0 s := by
  obtain ⟨hx, hy⟩ | ⟨rfl, rfl⟩ := h
  · exact aluWrite_of_agree (aluFlagFirst_eq_flagLast hx fun f => by rw [operand_reg, reg_setReg_ne _ _ _ _ hy, operand_reg])
  · exact aluWrite_of_agree (aluFlagFirst_eq_flagLast_VF hop 0 s)

theorem skipIf_withParams (c : Bool) (s : State) (p : Params) : skipIf c (s.withParams p) = (skipIf c s).withParams p := by
  cases c <;> rfl

theorem exec_ret_withParams (s : State) (p : Params) :
    exec .ret (s.withParams p) = mapNext (·.withParams p) (exec .ret s) := by
  by_cases hsp : 0 < s.SP.val
  · rw [exec_ret hsp]
    exact exec_ret (s := s.withParams p) hsp
  · have hempty : s.SP.val = 0 := by omega
    rw [exec_ret_empty hempty]
    exact exec_ret_empty (s := s.withParams p) hempty

theorem exec_callAddr_withParams (addr : Addr12) (s : State) (p : Params) :
    exec (.callAddr addr) (s.withParams p) = mapNext (·.withParams p) (exec (.callAddr addr) s) := by
  by_cases hsp : s.SP.val < 16
  · rw [exec_callAddr addr hsp]
    exact exec_callAddr (s := s.withParams p) addr hsp
  · have hfull : s.SP.val = 16 := by omega
    rw [exec_callAddr_full addr hfull]
    exact exec_callAddr_full (s := s.withParams p) addr hfull

theorem rangeFault_withOrder (s : State) (o : VfOrder) (base : Word) (n : Nat) :
    (s.withParams (withOrder s.params o)).rangeFault base n = s.rangeFault base n := rfl

theorem keyFault_withOrder (s : State) (o : VfOrder) (v : Byte) :
    (s.withParams (withOrder s.params o)).keyFault v = s.keyFault v := rfl

theorem storeAtI_withOrder (bytes : List Byte) (s : State) (o : VfOrder) :
    storeAtI bytes (s.withParams (withOrder s.params o)) =
      mapNext (·.withParams (withOrder s.params o)) (storeAtI bytes s) := by
  simp only [storeAtI, withParams_I, rangeFault_withOrder]
  cases s.rangeFault s.I bytes.length <;> rfl

/-- An instruction does the same under another order, in the forms in which the orders agree. -/
theorem exec_withOrder (i : Instr) (s : State) (o : VfOrder) (h : OrderFree i) :
    exec i (s.withParams (withOrder s.params o)) = mapNext (·.withParams (withOrder s.params o)) (exec i s) := by
  cases i with
  | cls | jpAddr | jpV0Addr | ldIAddr | addIVx | ldFVx | ldVxDt | ldDtVx | ldStVx => rfl
  | subVxVy x y => exact aluStep_withParams (aluWrite_sub_of_orderFree (.inl rfl) h) s _
  | subnVxVy x y => exact aluStep_withParams (aluWrite_sub_of_orderFree (.inr rfl) h) s _
  | shrVx | shlVx => exact aluStep_withParams (fun _ => aluWrite_of_agree (aluFlagFirst_eq_flagLast h fun _ => rfl)) s _
  | ldVxKk | addVxKk | ldVxVy | orVxVy | andVxVy | xorVxVy | addVxVy =>
    exact aluStep_withParams (fun _ => aluWrite_flagLast (.inr rfl) _ _ _) s _
  | seVxKk | sneVxKk | seVxVy | sneVxVy => exact congrArg Host.Outcome.next (skipIf_withParams _ s _)
  | rndVxKk =>
    simp only [exec, execRndVxKk, rndWith, aluWrite_noFlag (op := .rnd) rfl fun _ _ => rfl]
    rfl
  | ret => exact exec_ret_withParams s _
  | callAddr addr => exact exec_callAddr_withParams addr s _
  | skpVx x =>
    simp only [exec, execSkpVx, withParams_reg, keyFault_withOrder, skipIf_withParams]
    cases s.keyFault (s.reg x) <;> rfl
  | sknpVx x =>
    simp only [exec, execSknpVx, withParams_reg, keyFault_withOrder, skipIf_withParams]
    cases s.keyFault (s.reg x) <;> rfl
  | ldVxK x =>
    simp only [exec, execLdVxK, withParams_lastPressed, keyFound_eq, keyAwaited_eq]
    cases lastPressed s <;> rfl
  | drwVxVyN x y n =>
    obtain ⟨hx, hy⟩ := h
    simp only [exec, execDrwVxVyN, withParams_I, rangeFault_withOrder, drawOrigin_ne hx hy]
    cases s.rangeFault s.I n.toNat <;> rfl
  | ldBVx | ldMemVx => exact storeAtI_withOrder _ s o
  | ldVxMem x =>
    simp only [exec, execLdVxMem, withParams_I, rangeFault_withOrder]
    cases s.rangeFault s.I (x.val + 1) <;> rfl

/-! ### The obligations -/

/-- Settles O35, from `exec_withOrder`. -/
theorem vfOrdersAgree : Obligations.VfOrdersAgree := fun i s h =>
  exec_withOrder i { s with params := { s.params with vfOrder := .flagLast } } .sequential h

/-- Settles O29, by the table's rows. -/
theorem aluTable : Obligations.AluTable := fun a b rnd =>
  ⟨⟨rfl, rfl⟩, ⟨BitVec.toNat_add a b, rfl⟩, ⟨rfl, rfl⟩, ⟨fun _ => BitVec.getLsbD_or, rfl⟩,
    ⟨fun _ => BitVec.getLsbD_and, rfl⟩, ⟨fun _ => BitVec.getLsbD_xor, rfl⟩, ⟨BitVec.toNat_add a b, rfl⟩,
    ⟨toNat_sub_byte a b, rfl⟩, ⟨toNat_aluResult_shr a b rnd, aluFlag_shr a b⟩, ⟨toNat_sub_byte b a, rfl⟩,
    ⟨toNat_aluResult_shl a b rnd, aluFlag_shl a b⟩, ⟨fun _ => BitVec.getLsbD_and, rfl⟩⟩

/-- Settles O30, by `aluStep_noFlag`. -/
theorem loadsAndLogicWriteOneRegister : Obligations.LoadsAndLogicWriteOneRegister := by
  refine fun s x y kk => ⟨aluStep_noFlag rfl (fun _ _ => rfl) x _ s, ?_, aluStep_noFlag rfl (fun _ _ => rfl) x _ s,
    aluStep_noFlag rfl (fun _ _ => rfl) x _ s, aluStep_noFlag rfl (fun _ _ => rfl) x _ s,
    aluStep_noFlag rfl (fun _ _ => rfl) x _ s⟩
  obtain ⟨t, ht, hx, hrest⟩ := aluStep_noFlag (op := .addi) rfl (fun _ _ => rfl) x (.imm kk) s
  exact ⟨t, ht, hx ▸ BitVec.toNat_add (s.reg x) kk, hrest⟩

/-- Settles O31: the flag of 8xy4 comes last in either order. -/
theorem addRegistersSetsCarry : Obligations.AddRegistersSetsCarry := fun s x y =>
  aluStep_flagLast (op := .add) (b := .reg y) (.inr rfl) rfl (BitVec.toNat_add (s.reg x) (s.reg y))

/-- Settles O32, by `aluStep_flagLast`. -/
theorem subtractsFlagLast : Obligations.SubtractsFlagLast := fun s x y h =>
  ⟨aluStep_flagLast (op := .sub) (b := .reg y) (.inl h) rfl (toNat_sub_byte (s.reg x) (s.reg y)),
    aluStep_flagLast (op := .subn) (b := .reg y) (.inl h) rfl (toNat_sub_byte (s.reg y) (s.reg x))⟩

/-- Settles O33, by `aluStep_flagLast`. -/
theorem shiftsFlagLast : Obligations.ShiftsFlagLast := fun s x y h =>
  ⟨aluStep_flagLast (b := .reg y) (.inl h) (aluFlag_shr (s.reg x) (s.reg y)) (toNat_aluResult_shr (s.reg x) (s.reg y) 0),
    aluStep_flagLast (b := .reg y) (.inl h) (aluFlag_shl (s.reg x) (s.reg y)) (toNat_aluResult_shl (s.reg x) (s.reg y) 0)⟩

/-- Settles O34, by `aluStep_flagFirst`. -/
theorem sequentialOrderReadsTheFlag : Obligations.SequentialOrderReadsTheFlag := by
  intro s x y h
  refine ⟨fun _ => aluStep_flagFirst (op := .sub) h rfl rfl, fun _ => aluStep_flagFirst (op := .subn) h rfl rfl,
    fun flag hflag => ?_, fun flag hflag => ?_⟩
  · obtain ⟨t, ht, hx, hrest⟩ := aluStep_flagFirst h rfl (aluFlag_shr (s.reg x) (s.reg y)) hflag
    exact ⟨t, ht, hx ▸ toNat_aluResult_shr _ _ 0, hrest⟩
  · obtain ⟨t, ht, hx, hrest⟩ := aluStep_flagFirst h rfl (aluFlag_shl (s.reg x) (s.reg y)) hflag
    exact ⟨t, ht, hx ▸ toNat_aluResult_shl _ _ 0, hrest⟩

/-- Settles O36, by `rndWith_reg` and the footprint of Cxkk. -/
theorem randomByteIsMasked : Obligations.RandomByteIsMasked := fun s x kk =>
  ⟨⟨_, rfl, rndWith_reg _ x kk s, rfl, aluWrite_pc .rnd x (.imm kk) _ s.advance, exec_footprint (i := .rndVxKk x kk) rfl⟩,
    fun rnd => ⟨(rndWith_reg rnd x 0 s).trans BitVec.and_zero, (rndWith_reg rnd x 0xFF s).trans (Laws.byte_and_all rnd)⟩⟩

end Sys2Proof.Machine
end

section
/-! PROOFS. The family of 44_index_memory.md. First the rules: the index values in unsigned arithmetic; what a store from `I`
on leaves in memory, and a load in the registers. Then the obligations, from those rules. -/

namespace Sys2Proof.Machine

/-! ### Index values -/

theorem toNat_add_zextByte (a : Word) (v : Byte) : (a + zextByte v).toNat = (a.toNat + v.toNat) % 65536 := by
  rw [BitVec.toNat_add, toNat_zextByte]

/-- Five times a byte is at most 0x4FB, so the product does not wrap (R193). -/
theorem toNat_zextByte_mul_five (v : Byte) : (zextByte v * 5).toNat = 5 * v.toNat := by
  have hv := v.isLt
  rw [BitVec.toNat_mul, toNat_zextByte, show (5 : Word).toNat = 5 from rfl]
  omega

/-! ### Stores and loads from `I` on -/

theorem storeAtI_peek {s t : State} {bytes : List Byte} (h : storeAtI bytes s = .next t) (hlen : bytes.length ≤ Config.memSize)
    (k : Nat) (hk : k < bytes.length) : t.peek (s.I + BitVec.ofNat 16 k) = bytes[k] := by
  rw [storeAtI_next h]
  exact peek_pokeBytes s.advance s.I bytes hlen k hk

/-- The bytes that Fx33 stores are the quotients and remainders by 100 and 10 (R194). -/
theorem exec_ldBVx_peek {s t : State} {x : Reg} (h : exec (.ldBVx x) s = .next t) :
    (t.peek s.I).toNat = (s.reg x).toNat / 100 ∧ (t.peek (s.I + 1)).toNat = (s.reg x).toNat / 10 % 10 ∧
    (t.peek (s.I + 2)).toNat = (s.reg x).toNat % 10 := by
  have hpeek (k : Nat) (hk : k < 3) : t.peek (s.I + BitVec.ofNat 16 k) = (bcdDigits (s.reg x))[k] :=
    storeAtI_peek (bytes := bcdDigits (s.reg x)) h (show 3 ≤ Config.memSize by decide) k hk
  have h0 := hpeek 0 (by decide)
  rw [BitVec.add_zero] at h0
  exact ⟨congrArg BitVec.toNat h0, congrArg BitVec.toNat (hpeek 1 (by decide)), congrArg BitVec.toNat (hpeek 2 (by decide))⟩

theorem exec_ldMemVx_peek {s t : State} {x r : Reg} (h : exec (.ldMemVx x) s = .next t) (hr : r ≤ x) :
    t.peek (s.I + BitVec.ofNat 16 r.val) = s.reg r := by
  have hlen : (s.regsUpTo x).length ≤ Config.memSize := by
    rw [length_regsUpTo]
    exact Nat.le_trans x.isLt (by decide)
  have hk : r.val < (s.regsUpTo x).length := by
    rw [length_regsUpTo]
    exact Nat.lt_succ_of_le hr
  exact (storeAtI_peek h hlen r.val hk).trans (getElem_regsUpTo s x r hr)

theorem exec_ldVxMem_reg {s t : State} {x r : Reg} (h : exec (.ldVxMem x) s = .next t) (hr : r ≤ x) :
    t.reg r = s.peek (s.I + BitVec.ofNat 16 r.val) := by
  rw [exec_ldVxMem_next h]
  exact (loadRegs_getElem _ _ r).trans ((getD_peekBytes _ _ _ _ _).trans (if_pos (Nat.lt_succ_of_le hr)))

/-- A store leaves `I` as it was (R190). -/
theorem exec_ldMemVx_I {s t : State} {x : Reg} (h : exec (.ldMemVx x) s = .next t) : t.I = s.I :=
  exec_footprint h .index (by simp [mayWrite, atI])

/-! ### The obligations -/

/-- Settles O38: the stored quotients and remainders are the decimal digits of a byte, which is below 300. -/
theorem storeBcdDigits : Obligations.StoreBcdDigits := by
  intro s x hrange
  have h := exec_ldBVx x hrange
  obtain ⟨hhundreds, htens, hunits⟩ := exec_ldBVx_peek h
  have hbyte := (s.reg x).isLt
  exact ⟨_, h, by omega, by omega, by omega, by omega, rfl, exec_footprint h⟩

/-- Settles O39, by `exec_ldMemVx_peek` and the footprint of Fx55. -/
theorem storeRegistersFromIndex : Obligations.StoreRegistersFromIndex := fun _ x hrange =>
  have h := exec_ldMemVx x hrange
  ⟨_, h, fun _ => exec_ldMemVx_peek h, rfl, exec_footprint h⟩

/-- Settles O40, by `exec_ldVxMem_reg` and the footprint of Fx65. -/
theorem loadRegistersFromIndex : Obligations.LoadRegistersFromIndex := fun _ x hrange =>
  have h := exec_ldVxMem x hrange
  ⟨_, h, fun _ => exec_ldVxMem_reg h, rfl, exec_footprint h⟩

/-- Settles O41: the load reads, byte by byte, what the store wrote. -/
theorem storeLoadRoundTrip : Obligations.StoreLoadRoundTrip := by
  intro s t u v x hstore hI hkept hload r hr
  have hIs : t.I = s.I := exec_ldMemVx_I hstore
  calc v.reg r = u.peek (u.I + BitVec.ofNat 16 r.val) := exec_ldVxMem_reg hload hr
    _ = t.peek (s.I + BitVec.ofNat 16 r.val) := by rw [hI, hkept r hr, hIs]
    _ = s.reg r := exec_ldMemVx_peek hstore hr

/-- Settles O37, by the index values and the footprint of each instruction. -/
theorem indexRegisterLoads : Obligations.IndexRegisterLoads := fun s x addr =>
  ⟨⟨_, rfl, toNat_zextAddr addr, rfl, exec_footprint (i := .ldIAddr addr) rfl⟩,
    ⟨_, rfl, toNat_add_zextByte s.I (s.reg x), rfl, exec_footprint (i := .addIVx x) rfl⟩,
    ⟨_, rfl, toNat_zextByte_mul_five (s.reg x), rfl, exec_footprint (i := .ldFVx x) rfl⟩⟩

end Sys2Proof.Machine
end

section
/-! PROOFS. The family of 45_keys_timers.md. First the rules: where a key skip goes and when it stops; what a wait for a key
leaves, with a key and without; what an instruction, and then a step, does to memory and to the settings; and who writes the key
snapshot. Then the obligations, from those rules. -/

namespace Sys2Proof.Machine

/-! ### Key skips -/

theorem skipIf_pc_eq (c : Bool) (s : State) : (skipIf c s).pc = if c = true then s.nextPc + 2 else s.nextPc := by
  rw [skipIf_eq, setPc_pc]

theorem skipIf_not_pc_eq (c : Bool) (s : State) : (skipIf (!c) s).pc = if c = true then s.nextPc else s.nextPc + 2 := by
  cases c <;> exact skipIf_pc_eq _ s

theorem skipIf_mem (c : Bool) (s : State) : (skipIf c s).mem = s.mem := by
  rw [skipIf_eq, setPc_mem]

theorem exec_skpVx_keyRange {s : State} {x : Reg} (hf : s.params.keyOob = .fault) (h : 16 ≤ (s.reg x).toNat) :
    exec (.skpVx x) s = .fault (.keyRange (s.reg x) s.pc) := by
  simp [exec, execSkpVx, keyFault_eq_some hf h, raise]

theorem exec_sknpVx_keyRange {s : State} {x : Reg} (hf : s.params.keyOob = .fault) (h : 16 ≤ (s.reg x).toNat) :
    exec (.sknpVx x) s = .fault (.keyRange (s.reg x) s.pc) := by
  simp [exec, execSknpVx, keyFault_eq_some hf h, raise]

/-! ### The wait for a key -/

theorem toNat_keyByte (k : Reg) : (keyByte k).toNat = k.val := by
  have hk := k.isLt
  rw [keyByte, BitVec.toNat_ofNat]
  omega

theorem keyFound_wait (s : State) (x k : Reg) : (s.keyFound x k).wait = false := by
  rw [keyFound_eq]

theorem keyFound_reg (s : State) (x k : Reg) : (s.keyFound x k).reg x = keyByte k := by
  rw [keyFound_eq]
  exact reg_setReg_self s x (keyByte k)

theorem keyFound_mem (s : State) (x k : Reg) : (s.keyFound x k).mem = s.mem := by
  rw [keyFound_eq]

theorem keyAwaited_wait (s : State) : s.keyAwaited.wait = true := by
  rw [keyAwaited_eq]

theorem keyAwaited_mem (s : State) : s.keyAwaited.mem = s.mem := by
  rw [keyAwaited_eq]

/-- Under REFETCH a blocked Fx0A only sets the input-wait flag (R214). -/
theorem keyAwaited_refetch {s : State} (h : s.params.waitPc = .refetch) : s.keyAwaited = { s with wait := true } := by
  simp [State.keyAwaited, h]

/-- The fetch does not look at the input-wait flag. -/
theorem fetchInstr_wait (s : State) (w : Bool) : fetchInstr { s with wait := w } = fetchInstr s := rfl

theorem fetchInstr_keyAwaited {s : State} (h : s.params.waitPc = .refetch) : fetchInstr s.keyAwaited = fetchInstr s := by
  rw [keyAwaited_refetch h, fetchInstr_wait]

/-- A CORE that waits under REFETCH is where its next blocked Fx0A leaves it. -/
theorem keyAwaited_of_waiting {s : State} (h : s.params.waitPc = .refetch) (hw : s.wait = true) : s.keyAwaited = s := by
  rw [keyAwaited_refetch h, ← hw]

/-- While no key is pressed, a CORE that waits under REFETCH steps to itself. -/
theorem step_of_waiting {s : State} {x : Reg} (hs : s.faulted = false) (hfetch : fetchInstr s = .ok (.ldVxK x))
    (hnone : lastPressed s = none) (h : s.params.waitPc = .refetch) (hw : s.wait = true) : step s = .next s := by
  rw [step_eq_exec hs hfetch, exec_ldVxK_none x hnone, keyAwaited_of_waiting h hw]

/-! ### What a step does -/

/-- A step that finishes is its fetched instruction, finished. -/
theorem step_next {s t : State} (h : step s = .next t) : ∃ i, fetchInstr s = .ok i ∧ exec i s = .next t := by
  unfold step at h
  split at h
  next => cases h
  next =>
    split at h
    next => cases h
    next i hi => exact ⟨i, hi, h⟩

theorem aluWrite_mem (op : AluOp) (x : Reg) (b : Operand) (rnd : Byte) (s : State) :
    (aluWrite op x b rnd s).mem = s.mem := by
  rw [aluWrite_fields]

/-- An instruction that finishes leaves memory as it was, or stores bytes from `I` on (20_memory.md R76). -/
theorem exec_mem {i : Instr} {s t : State} (h : exec i s = .next t) :
    t.mem = s.mem ∨ ∃ bytes, t.mem = s.mem.writeBytes s.I bytes := by
  cases i with
  | ldBVx x => exact .inr ⟨bcdDigits (s.reg x), congrArg State.mem (storeAtI_next h)⟩
  | ldMemVx x => exact .inr ⟨s.regsUpTo x, congrArg State.mem (storeAtI_next h)⟩
  | ldVxKk | addVxKk | ldVxVy | orVxVy | andVxVy | xorVxVy | addVxVy | subVxVy | shrVx | subnVxVy | shlVx | rndVxKk =>
    cases h
    exact .inl (aluWrite_mem _ _ _ _ s.advance)
  | seVxKk | sneVxKk | seVxVy | sneVxVy =>
    cases h
    exact .inl (skipIf_mem _ s)
  | skpVx =>
    rw [exec_skpVx_next h]
    exact .inl (skipIf_mem _ s)
  | sknpVx =>
    rw [exec_sknpVx_next h]
    exact .inl (skipIf_mem _ s)
  | ldVxK =>
    obtain ⟨k, -, rfl⟩ | rfl := exec_ldVxK_next h
    · exact .inl (keyFound_mem s _ k)
    · exact .inl (keyAwaited_mem s)
  | ret =>
    obtain ⟨_, rfl⟩ := exec_ret_next h
    exact .inl rfl
  | callAddr =>
    obtain ⟨_, rfl⟩ := exec_callAddr_next h
    exact .inl rfl
  | drwVxVyN =>
    rw [exec_drwVxVyN_next h]
    exact .inl rfl
  | ldVxMem =>
    rw [exec_ldVxMem_next h]
    exact .inl rfl
  | cls | jpAddr | jpV0Addr | ldIAddr | addIVx | ldFVx | ldVxDt | ldDtVx | ldStVx =>
    cases h
    exact .inl rfl

theorem exec_mem_wf {i : Instr} {s t : State} (hs : s.mem.wf = true) (h : exec i s = .next t) : t.mem.wf = true := by
  obtain hmem | ⟨bytes, hmem⟩ := exec_mem h
  · rw [hmem]
    exact hs
  · rw [hmem]
    exact wf_writeBytes s.I bytes hs

theorem not_mayWrite_params (s : State) (i : Instr) : ¬ mayWrite s i .params := by
  cases i <;> simp [mayWrite, atI]

theorem exec_params {i : Instr} {s t : State} (h : exec i s = .next t) : t.params = s.params :=
  exec_footprint h .params (not_or.mpr ⟨nofun, not_mayWrite_params s i⟩)

/-- An Fx0A that leaves the input-wait flag set under REFETCH is fetched again. -/
theorem exec_ldVxK_waitsAtKey {s t : State} {x : Reg} (hfetch : fetchInstr s = .ok (.ldVxK x))
    (h : exec (.ldVxK x) s = .next t) : WaitsAtKey t := by
  intro hwait hmode
  rw [exec_params h] at hmode
  obtain ⟨k, -, rfl⟩ | rfl := exec_ldVxK_next h
  · rw [keyFound_wait] at hwait
    cases hwait
  · exact ⟨x, (fetchInstr_keyAwaited hmode).trans hfetch⟩

/-- Another instruction leaves the flag and the model of the wait, so a CORE that waits after it waited before it: then it was
not the instruction fetched. -/
theorem exec_waitsAtKey_of_ne {s t : State} {i : Instr} (hs : WaitsAtKey s) (hfetch : fetchInstr s = .ok i)
    (hi : ∀ x, i ≠ .ldVxK x) (h : exec i s = .next t) : WaitsAtKey t := by
  intro hwait hmode
  rw [exec_wait hi h] at hwait
  rw [exec_params h] at hmode
  obtain ⟨x, hx⟩ := hs hwait hmode
  exact absurd (Except.ok.inj (hfetch.symm.trans hx)) (hi x)

theorem exec_waitsAtKey {s t : State} {i : Instr} (hs : WaitsAtKey s) (hfetch : fetchInstr s = .ok i)
    (h : exec i s = .next t) : WaitsAtKey t := by
  by_cases hi : ∃ x, i = .ldVxK x
  · obtain ⟨x, rfl⟩ := hi
    exact exec_ldVxK_waitsAtKey hfetch h
  · exact exec_waitsAtKey_of_ne hs hfetch (not_exists.mp hi) h

theorem step_inv {s t : State} (hs : Inv s) (h : step s = .next t) : Inv t := by
  obtain ⟨hmem, hwait⟩ := hs
  obtain ⟨i, hfetch, hexec⟩ := step_next h
  exact ⟨exec_mem_wf hmem hexec, exec_waitsAtKey hwait hfetch hexec⟩

/-! ### Who writes the key snapshot -/

theorem changesOnly_setKeys (s : State) (k : Vector Bool 16) : ChangesOnly s (s.setKeys k) (fun p => ∃ i, p = .key i) := by
  intro p hp
  cases p with
  | key i => exact absurd ⟨i, rfl⟩ hp
  | _ => rfl

theorem step_keys {s t : State} (h : step s = .next t) : t.keys = s.keys := by
  obtain ⟨_, -, hexec⟩ := step_next h
  exact exec_keys hexec

/-- Only `set_keys`, a reset and a fatal outcome reach the key snapshot (R210). -/
theorem transact_keys {c : HostCall} {S : Session} (hset : ∀ k, c ≠ .setKeys k) (hreset : ∀ free, c ≠ .reset free)
    (hfault : ∀ f, (transact c S).1 ≠ .fault f) : (transact c S).2.core.keys = S.core.keys := by
  cases c with
  | setKeys k => exact absurd rfl (hset k)
  | reset free => exact absurd rfl (hreset free)
  | load image base => simp only [transact]; split <;> rfl
  | tickTimers => simp only [transact]; split <;> rfl
  | step =>
    cases hstep : step S.core with
    | next t => simpa [transact, hstep] using step_keys hstep
    | fault f => exact absurd (by simp [transact, hstep]) (hfault f)
    | refused r => simp [transact, hstep]

/-! ### The obligations -/

/-- Settles O51, by what the fetched instruction does to memory and to the wait. -/
theorem stepKeepsTheInvariant : Obligations.StepKeepsTheInvariant := fun _ _ => step_inv

/-- Settles O45: the scan finds the highest key, and Fx0A leaves `keyFound`. -/
theorem waitForKeyTakesTheHighest : Obligations.WaitForKeyTakesTheHighest := by
  intro s x k hk hmax
  refine ⟨s.keyFound x k, exec_ldVxK_found x (lastPressed_eq hk hmax), ?_, keyFound_wait s x k, fun hmode => ?_,
    fun hmode => ?_, changesOnly_keyFound s x k⟩
  · rw [keyFound_reg, toNat_keyByte]
  · simp [keyFound_eq, hmode]
  · simp [keyFound_eq, hmode]

/-- Settles O42: each skip goes where its key says, and changes only pc. -/
theorem keySkipsTestTheKey : Obligations.KeySkipsTestTheKey := by
  intro s x k hadmitted hk
  obtain rfl : k = keyIndex (s.reg x) := Fin.ext hk
  exact ⟨⟨_, exec_skpVx hadmitted, skipIf_pc_eq _ s, changesOnly_skipIf _ s⟩,
    ⟨_, exec_sknpVx hadmitted, skipIf_not_pc_eq _ s, changesOnly_skipIf _ s⟩⟩

/-- Settles O43, by the KeyRange outcome of each skip. -/
theorem keyRangeStops : Obligations.KeyRangeStops := fun _ _ hf h => ⟨exec_skpVx_keyRange hf h, exec_sknpVx_keyRange hf h⟩

/-- Settles O44, by the footprint of each instruction. -/
theorem timerRegisters : Obligations.TimerRegisters := fun s x =>
  ⟨⟨_, rfl, reg_setReg_self s.advance x s.DT, rfl, exec_footprint (i := .ldVxDt x) rfl⟩,
    ⟨_, rfl, rfl, rfl, exec_footprint (i := .ldDtVx x) rfl⟩,
    ⟨_, rfl, rfl, rfl, exec_footprint (i := .ldStVx x) rfl⟩⟩

/-- Settles O46: the blocked Fx0A leaves `keyAwaited`, where under REFETCH the same instruction is fetched and blocks again. -/
theorem waitForKeyBlocks : Obligations.WaitForKeyBlocks := by
  intro s x hkeys
  have hnone : lastPressed s = none := lastPressed_eq_none.mpr hkeys
  refine ⟨s.keyAwaited, exec_ldVxK_none x hnone, keyAwaited_wait s, fun hmode => ?_, fun hmode => ?_,
    changesOnly_keyAwaited s⟩
  · rw [keyAwaited_refetch hmode]
    exact ⟨rfl, fun hs hfetch => step_of_waiting (s := { s with wait := true }) hs hfetch hnone hmode rfl⟩
  · simp [keyAwaited_eq, hmode]

/-- Settles O48, by what `set_keys` changes and by `transact_keys`. -/
theorem keySnapshot : Obligations.KeySnapshot := by
  refine ⟨fun S k hS => ?_, fun c S hset hreset hfault i => ?_⟩
  · exact ⟨S.core.setKeys k, by simp [transact, hS], fun _ => rfl, changesOnly_setKeys S.core k⟩
  · exact congrArg (fun keys : Vector Bool 16 => keys[i]) (transact_keys hset hreset hfault)

end Sys2Proof.Machine
end

section
/-! PROOFS. The family of 60_exceptions.md. First the rules: the fault of each instruction, and that `exec` answers exactly it;
the fatal outcomes of a step; what a faulted CORE answers to a transaction and to a schedule; and the timers, which
instructions see them and what a tick does to them. Then the obligations, from those rules. -/

namespace Sys2Proof.Machine

/-! ### The fault of an instruction -/

/-- The fault that an instruction raises, if it raises one (60_exceptions.md R232); `exec_eq_fault_iff` ties it to `exec`. -/
def faultRaised (s : State) : Instr → Option Fault
  | .ret => if s.SP.val = 0 then some (.stackUnderflow s.pc) else none
  | .callAddr _ => if s.SP.val = 16 then some (.stackOverflow s.pc) else none
  | .drwVxVyN _ _ n => s.rangeFault s.I n.toNat
  | .ldBVx _ => s.rangeFault s.I 3
  | .ldMemVx x | .ldVxMem x => s.rangeFault s.I (x.val + 1)
  | .skpVx x | .sknpVx x => s.keyFault (s.reg x)
  | _ => none

/-- A store from `I` on raises the fault of its range. -/
theorem storeAtI_fault {s : State} {bytes : List Byte} {n : Nat} {f : Fault} (hlen : bytes.length = n)
    (h : s.rangeFault s.I n = some f) : storeAtI bytes s = .fault f := by
  simp [storeAtI, hlen, h, raise]

theorem exec_of_faultRaised {i : Instr} {s : State} {f : Fault} (h : faultRaised s i = some f) : exec i s = .fault f := by
  cases i with
  | ret =>
    obtain ⟨hempty, ⟨⟩⟩ := Option.ite_none_right_eq_some.mp h
    exact exec_ret_empty hempty
  | callAddr addr =>
    obtain ⟨hfull, ⟨⟩⟩ := Option.ite_none_right_eq_some.mp h
    exact exec_callAddr_full addr hfull
  | ldBVx x => exact storeAtI_fault (bytes := bcdDigits (s.reg x)) rfl h
  | ldMemVx x => exact storeAtI_fault (length_regsUpTo s x) h
  | drwVxVyN | ldVxMem | skpVx | sknpVx =>
    simp only [faultRaised] at h
    simp [exec, execDrwVxVyN, execLdVxMem, execSkpVx, execSknpVx, h, raise]
  | _ => cases h

theorem exec_of_faultRaised_none {i : Instr} {s : State} (h : faultRaised s i = none) : ∃ t, exec i s = .next t := by
  cases i with
  | ret => exact ⟨_, exec_ret (Nat.pos_of_ne_zero fun hempty => by simp [faultRaised, hempty] at h)⟩
  | callAddr addr =>
    have hfull : s.SP.val ≠ 16 := fun hfull => by simp [faultRaised, hfull] at h
    exact ⟨_, exec_callAddr addr (by omega)⟩
  | drwVxVyN x y => exact ⟨_, exec_drwVxVyN x y (rangeFault_eq_none.mp h)⟩
  | ldBVx x => exact ⟨_, exec_ldBVx x (rangeFault_eq_none.mp h)⟩
  | ldMemVx x => exact ⟨_, exec_ldMemVx x (rangeFault_eq_none.mp h)⟩
  | ldVxMem x => exact ⟨_, exec_ldVxMem x (rangeFault_eq_none.mp h)⟩
  | skpVx => exact ⟨_, exec_skpVx (keyFault_eq_none.mp h)⟩
  | sknpVx => exact ⟨_, exec_sknpVx (keyFault_eq_none.mp h)⟩
  | ldVxK x =>
    cases hk : lastPressed s with
    | some k => exact ⟨_, exec_ldVxK_found x hk⟩
    | none => exact ⟨_, exec_ldVxK_none x hk⟩
  | _ => exact ⟨_, rfl⟩

theorem exec_eq_fault_iff {i : Instr} {s : State} {f : Fault} : exec i s = .fault f ↔ faultRaised s i = some f := by
  refine ⟨fun h => ?_, exec_of_faultRaised⟩
  cases hr : faultRaised s i with
  | none =>
    obtain ⟨t, ht⟩ := exec_of_faultRaised_none hr
    cases ht.symm.trans h
  | some g =>
    cases (exec_of_faultRaised hr).symm.trans h
    rfl

theorem exists_rangeFault_iff {s : State} {base : Word} {n : Nat} :
    (∃ f, s.rangeFault base n = some f) ↔ ¬ InRange s base n := by
  rw [← Option.ne_none_iff_exists', Ne, rangeFault_eq_none]

theorem exists_keyFault_iff {s : State} {v : Byte} :
    (∃ f, s.keyFault v = some f) ↔ s.params.keyOob = .fault ∧ 16 ≤ v.toNat := by
  rw [← Option.ne_none_iff_exists', Ne, keyFault_eq_none]
  cases s.params.keyOob <;> simp

/-- With both model-only faults off, only the return and the call raise a fault (R230). -/
theorem faultRaised_wrap {s : State} {i : Instr} {f : Fault} (hmem : s.params.memOob = .wrap)
    (hkey : s.params.keyOob = .wrap) : faultRaised s i = some f ↔
      (i = .ret ∧ s.SP.val = 0 ∧ f = .stackUnderflow s.pc) ∨
      (∃ addr, i = .callAddr addr ∧ s.SP.val = 16 ∧ f = .stackOverflow s.pc) := by
  cases i with
  | ret | callAddr => simp [faultRaised, eq_comm (a := f)]
  | drwVxVyN | ldBVx | ldMemVx | ldVxMem => simp [faultRaised, rangeFault_eq_none.mpr (.inl hmem)]
  | skpVx | sknpVx => simp [faultRaised, keyFault_eq_none.mpr (.inl hkey)]
  | _ => simp [faultRaised]

/-! ### The fatal outcomes of a step -/

/-- A step is fatal where the decoder rejects the fetched word, and where the instruction raises its fault. -/
theorem step_eq_fault_iff {s : State} {w : Word} {f : Fault} (hs : s.faulted = false) (hw : fetch s = .ok w) :
    step s = .fault f ↔
      ((∃ e, decode s.params.strict59 w = .error e) ∧ f = .unknownOpcode w s.pc) ∨
      ∃ i, decode s.params.strict59 w = .ok i ∧ faultRaised s i = some f := by
  cases hd : decode s.params.strict59 w with
  | error e =>
    rw [step_eq_fault hs (fetchInstr_rejected hw hd)]
    simp [eq_comm]
  | ok i =>
    rw [step_eq_exec hs (fetchInstr_ok hw hd), exec_eq_fault_iff]
    simp

theorem runs_of_no_fault {s : State} (hs : s.faulted = false) (h : ∀ f, step s ≠ .fault f) : Runs s := by
  cases hstep : step s with
  | next t => exact ⟨hs, t, hstep⟩
  | fault f => exact absurd hstep (h f)
  | refused r => exact absurd hstep (step_ne_refused hs r)

/-! ### A faulted session -/

theorem transact_step_fault {S : Session} {f : Fault} (h : step S.core = .fault f) :
    transact .step S = (.fault f, S.fail f) := by
  simp [transact, h]

@[simp] theorem fail_faulted (S : Session) (f : Fault) : (S.fail f).core.faulted = true := rfl

/-- While the CORE is faulted, every transaction but a reset is refused and changes nothing (R231). -/
theorem transact_of_faulted {c : HostCall} {S : Session} (hS : S.core.faulted = true) (hreset : ∀ free, c ≠ .reset free) :
    transact c S = (.refused .coreFaulted, S) := by
  cases c with
  | reset free => exact absurd rfl (hreset free)
  | load image base => simp [transact, Session.loadRefusal, hS]
  | step => simp [transact, step_of_faulted hS]
  | tickTimers => simp [transact, hS]
  | setKeys k => simp [transact, hS]

theorem runSchedule_of_faulted {calls : List HostCall} {S : Session} (hS : S.core.faulted = true)
    (hreset : ∀ free, HostCall.reset free ∉ calls) : runSchedule calls S = S := by
  induction calls with
  | nil => rfl
  | cons c cs ih =>
    have hc : ∀ free, c ≠ .reset free := fun free e => hreset free (e ▸ List.mem_cons_self)
    rw [runSchedule_cons, transact_of_faulted hS hc]
    exact ih fun free hmem => hreset free (List.mem_cons_of_mem c hmem)

/-! ### The timers -/

/-- Every instruction but Fx07 and Fx15 spares a change of DT (R241). -/
theorem spares_DT (f : Byte → Byte) {i : Instr} (hread : ∀ x, i ≠ .ldVxDt x) (hwrite : ∀ x, i ≠ .ldDtVx x) :
    ({ DT := f } : Overlay).Spares i := by
  cases i with
  | ldVxDt x => exact absurd rfl (hread x)
  | ldDtVx x => exact absurd rfl (hwrite x)
  | ret | callAddr => exact ⟨rfl, rfl⟩
  | cls | drwVxVyN | skpVx | sknpVx | ldVxK | ldStVx => rfl
  | _ => trivial

/-- Every instruction but Fx18 spares a change of ST (R241). -/
theorem spares_ST (f : Byte → Byte) {i : Instr} (hwrite : ∀ x, i ≠ .ldStVx x) : ({ ST := f } : Overlay).Spares i := by
  cases i with
  | ldStVx x => exact absurd rfl (hwrite x)
  | ret | callAddr => exact ⟨rfl, rfl⟩
  | cls | drwVxVyN | skpVx | sknpVx | ldVxK | ldVxDt | ldDtVx => rfl
  | _ => trivial

theorem tickDown_of_eq_zero {t : Byte} (h : t = 0) : tickDown t = 0 := if_pos h

theorem toNat_tickDown_add_one {t : Byte} (h : t ≠ 0) : (tickDown t).toNat + 1 = t.toNat := by
  have hpos : t.toNat ≠ 0 := BitVec.toNat_ne.mp h
  have ht := t.isLt
  rw [tickDown, if_neg h, toNat_sub_byte, show (1 : Byte).toNat = 1 from rfl]
  omega

/-- A tick is a truncated subtraction: one less, and 0 stays 0 (R240). -/
theorem toNat_tickDown (t : Byte) : (tickDown t).toNat = t.toNat - 1 := by
  by_cases h : t = 0
  · rw [tickDown_of_eq_zero h, h]
    rfl
  · exact Nat.eq_sub_of_add_eq (toNat_tickDown_add_one h)

theorem changesOnly_tickTimers (s : State) : ChangesOnly s s.tickTimers (fun p => p = .delay ∨ p = .sound) :=
  (changesOnly_DT s (tickDown s.DT)).comp (changesOnly_ST _ (tickDown s.ST))

/-! ### The obligations -/

/-- Settles O18: an instruction answers exactly its own fault. -/
theorem fatalOutcomesPerInstruction : Obligations.FatalOutcomesPerInstruction := by
  refine fun i s => ⟨exec_ne_refused i s, ?_⟩
  simp only [exec_eq_fault_iff]
  cases i with
  | ret | callAddr => simp [faultRaised]
  | drwVxVyN | ldBVx | ldMemVx | ldVxMem => exact exists_rangeFault_iff
  | skpVx | sknpVx => exact exists_keyFault_iff
  | _ => exact iff_of_false nofun id

/-- Settles O17: with both model-only faults off, the fatal outcomes of a step are those of the decoder, the return and the
call. -/
theorem exactlyThreeFatalConditions : Obligations.ExactlyThreeFatalConditions := by
  intro s hmem hkey hs
  have hw := fetch_inRange (s := s) (.inl hmem)
  refine ⟨_, hw, fun f => ?_, runs_of_no_fault hs, fun S f hcore hf => ?_⟩
  · rw [step_eq_fault_iff hs hw]
    refine or_congr_right ⟨?_, ?_⟩
    · rintro ⟨i, hd, hraised⟩
      obtain ⟨rfl, hret⟩ | ⟨addr, rfl, hcall⟩ := (faultRaised_wrap hmem hkey).mp hraised
      · exact .inl ⟨hd, hret⟩
      · exact .inr ⟨addr, hd, hcall⟩
    · rintro (⟨hd, hret⟩ | ⟨addr, hd, hcall⟩)
      · exact ⟨.ret, hd, (faultRaised_wrap hmem hkey).mpr (.inl ⟨rfl, hret⟩)⟩
      · exact ⟨.callAddr addr, hd, (faultRaised_wrap hmem hkey).mpr (.inr ⟨addr, rfl, hcall⟩)⟩
  · subst hcore
    rw [transact_step_fault hf]
    exact ⟨rfl, step_of_faulted (fail_faulted S f)⟩

/-- Settles O20: every transaction of a faulted session but a reset is refused, so a schedule of them changes nothing. -/
theorem faultedCoreRefusesUntilReset : Obligations.FaultedCoreRefusesUntilReset := by
  refine ⟨fun S f hf => ?_, fun S calls hS hreset => ⟨runSchedule_of_faulted hS hreset, fun c hc => ?_⟩, fun _ _ => rfl⟩
  · rw [transact_step_fault hf]
    exact ⟨rfl, fail_faulted S f⟩
  · rw [transact_of_faulted hS fun free e => hreset free (e ▸ hc)]

/-- Settles O16: the couplings that are not there from `exec_overlay`, those that are there by running the instruction. -/
theorem timersCoupleByTheirInstructionsOnly : Obligations.TimersCoupleByTheirInstructionsOnly := by
  refine ⟨fun i s dt hread hwrite => ?_, fun i s st hwrite => ?_, fun x s => ?_, fun x s => ?_, fun x s => ?_, fun _ => rfl,
    fun s => ⟨toNat_tickDown s.DT, toNat_tickDown s.ST⟩⟩
  · exact exec_overlay { DT := fun _ => dt } i s (spares_DT _ hread hwrite)
  · exact exec_overlay { ST := fun _ => st } i s (spares_ST _ hwrite)
  · exact ⟨_, rfl, reg_setReg_self s.advance x s.DT, rfl⟩
  · exact ⟨_, rfl, rfl, fun _ => rfl⟩
  · exact ⟨_, rfl, rfl, fun _ => rfl⟩

/-- Settles O19: the range of each access holds offset `k`, so its fault is that of the first address out of range. -/
theorem addressRangeNamesTheFirstAddress : Obligations.AddressRangeNamesTheFirstAddress := by
  intro s k hf hout hin
  have hfirst {n : Nat} (hk : k < n) := rangeFault_first (n := n) hf hk hout hin
  exact ⟨fun _ _ _ hk => exec_of_faultRaised (hfirst hk), fun _ hk => exec_of_faultRaised (hfirst hk),
    fun _ hk => exec_of_faultRaised (hfirst (Nat.lt_succ_of_le hk)),
    fun _ hk => exec_of_faultRaised (hfirst (Nat.lt_succ_of_le hk))⟩

/-- Settles O47, by what a tick does to one timer and by its frame. -/
theorem timerTick : Obligations.TimerTick := by
  refine fun S => ⟨fun hS => ?_, fun hS => ?_⟩
  · exact ⟨S.core.tickTimers, by simp [transact, hS], tickDown_of_eq_zero, toNat_tickDown_add_one, tickDown_of_eq_zero,
      toNat_tickDown_add_one, changesOnly_tickTimers S.core⟩
  · rw [transact_of_faulted (c := .tickTimers) hS nofun]

end Sys2Proof.Machine
end

section
/-! PROOFS. The family of 70_reset_and_hazards.md. First the rules: an infinite schedule as its finite prefixes; memory after the
font is stored; a reset under each setting of `RESET_FREE`; and that every transaction keeps the invariant of a session. Then the
obligations, from those rules. -/

namespace Sys2Proof.Machine

/-! ### Schedules -/

/-- The session before transaction `n` of an infinite schedule is the one after its first `n` transactions (R270). -/
theorem sessionAt_eq_runSchedule (calls : Schedule) (S : Session) (n : Nat) :
    sessionAt calls S n = runSchedule ((List.range n).map calls) S := by
  induction n with
  | zero => rfl
  | succ n ih => simp [List.range_succ, runSchedule_append, ih]

/-! ### The font in memory -/

theorem phys_zero_add_ofNat {k : Nat} (hk : k < 80) : phys (0 + BitVec.ofNat 16 k) = k :=
  (congrArg phys (BitVec.zero_add _)).trans (phys_ofNat (Nat.lt_trans hk (by decide)))

theorem read_font (m : Mem) (font : Vector Byte 80) (k : Fin 80) : (m.writeBytes 0 font.toList).read k.val = font[k] := by
  have hstored := read_writeBytes m 0 font.toList (by simp [Config.memSize]) k.val (by simp)
  simpa only [phys_zero_add_ofNat k.isLt, Vector.getElem_toList, Fin.getElem_fin] using hstored

theorem read_above_font (m : Mem) (font : Vector Byte 80) {k : Nat} (hk : 80 ≤ k) :
    (m.writeBytes 0 font.toList).read k = m.read k := by
  refine read_writeBytes_ne m 0 font.toList k fun j hj => ?_
  rw [Vector.length_toList] at hj
  rw [phys_zero_add_ofNat hj]
  omega

theorem unlistedByte_above_font {k : Nat} (hk : 80 ≤ k) : unlistedByte k = 0 := by
  have hlen : defaultFont.length ≤ k := hk
  rw [unlistedByte, List.getD_eq_getElem?_getD, List.getElem?_eq_none hlen, Option.getD_none]

theorem defaultFont_getElem (k : Fin 80) : defaultResetParams.font[k] = unlistedByte k :=
  Vector.getElem_ofFn k.isLt

/-- Storing the default font over the reset contents lists nothing: memory reads as before, so it is the same list. -/
theorem writeBytes_defaultFont : Mem.writeBytes [] 0 defaultResetParams.font.toList = [] := by
  have hwf : Mem.wf (Mem.writeBytes [] 0 defaultResetParams.font.toList) = true := wf_writeBytes 0 _ rfl
  refine eq_of_read_eq (lo := 0) hwf rfl fun k _ => ?_
  by_cases hk : k < 80
  · exact (read_font [] defaultResetParams.font ⟨k, hk⟩).trans (defaultFont_getElem ⟨k, hk⟩)
  · exact read_above_font [] _ (Nat.le_of_not_lt hk)

/-! ### A reset -/

/-- Under `RESET_FREE = false` a reset leaves `State.reset` with its own font and parameters (D10). -/
theorem resetCore_constrained {rp : ResetParams} (h : rp.resetFree = false) (p : Params) (free : State) :
    resetCore p rp free =
      { State.reset with mem := Mem.writeBytes [] 0 rp.font.toList, params := p, draws := free.draws } := by
  simp [resetCore, h, State.reset]

/-- Under `RESET_FREE = true` a reset leaves the arbitrary state but for pc, the font, `faulted` and the parameters (D10). -/
theorem resetCore_unconstrained {rp : ResetParams} (h : rp.resetFree = true) (p : Params) (free : State) :
    resetCore p rp free =
      { free with
        pc := Config.programBase, mem := free.mem.writeBytes 0 rp.font.toList, faulted := false, params := p } := by
  simp [resetCore, h]

theorem reg_reset (r : Reg) : State.reset.reg r = 0 := by
  simp [State.reg, State.reset]

theorem key_reset (k : Reg) : State.reset.key k = false := by
  simp [State.key, State.reset]

theorem slot_reset (k : Fin 16) : State.reset.stack[k] = 0 := by
  simp [State.reset]

theorem inv_resetCore {rp : ResetParams} (h : rp.resetFree = false) (p : Params) (free : State) :
    Inv (resetCore p rp free) := by
  rw [resetCore_constrained h]
  exact ⟨wf_writeBytes 0 _ rfl, nofun⟩

/-! ### Every transaction keeps the invariant of a session -/

/-- An image may overwrite any instruction, so this needs a CORE that does not wait: that is why `Session.Inv` speaks of `booting`. -/
theorem inv_loadImage {s : State} (hs : Inv s) (hwait : s.wait = false) (image : List Byte) : Inv (s.loadImage image) := by
  obtain ⟨hmem, -⟩ := hs
  exact ⟨wf_writeBytes Config.programBase image hmem, fun h => absurd (hwait.symm.trans h) nofun⟩

/-- A tick reaches neither memory, the wait nor the fetch. -/
theorem inv_tickTimers {s : State} (hs : Inv s) : Inv s.tickTimers := hs

/-- A key snapshot reaches neither memory, the wait nor the fetch. -/
theorem inv_setKeys {s : State} (hs : Inv s) (k : Vector Bool 16) : Inv (s.setKeys k) := hs

theorem transact_step_next {S : Session} {t : State} (h : step S.core = .next t) :
    transact .step S = (.ok, { S with core := t, booting := false }) := by
  simp [transact, h]

/-- No transaction changes the parameters that a reset reads. -/
theorem transact_resetParams (c : HostCall) (S : Session) : (transact c S).2.resetParams = S.resetParams := by
  cases c with
  | load | step | tickTimers | setKeys => simp only [transact]; split <;> rfl
  | reset => rfl

theorem transact_reset_inv {S : Session} (hfree : S.resetParams.resetFree = false) (free : State) :
    (transact (.reset free) S).2.Inv := by
  refine .inr ⟨inv_resetCore hfree _ _, fun _ => ?_⟩
  simp [transact, resetCore_constrained hfree, State.reset]

theorem transact_step_inv {S : Session} (hS : S.core.faulted = false) (hcore : Machine.Inv S.core) :
    (transact .step S).2.Inv := by
  cases hstep : step S.core with
  | next t =>
    rw [transact_step_next hstep]
    exact .inr ⟨step_inv hcore hstep, nofun⟩
  | fault f =>
    rw [transact_step_fault hstep]
    exact .inl (fail_faulted S f)
  | refused r => exact absurd hstep (step_ne_refused hS r)

theorem transact_load_inv {S : Session} (hS : S.Inv) (hcore : Machine.Inv S.core)
    (hboot : S.booting = true → S.core.wait = false) (image : List Byte) (base : Word) :
    (transact (.load image base) S).2.Inv := by
  by_cases hadmit : S.loadRefusal image base = none
  · obtain ⟨-, -, -, hbooting⟩ := loadRefusal_eq_none.mp hadmit
    rw [transact_load_admitted hadmit]
    exact .inr ⟨inv_loadImage hcore (hboot hbooting) image, hboot⟩
  · obtain ⟨r, hrefused⟩ := transact_load_refused hadmit
    rw [hrefused]
    exact hS

/-- A transaction of a faulted CORE changes nothing unless it is a reset; of a CORE that is not, each keeps the invariant. -/
theorem transact_inv {S : Session} (c : HostCall) (hfree : S.resetParams.resetFree = false) (hS : S.Inv) :
    (transact c S).2.Inv := by
  by_cases hreset : ∃ free, c = .reset free
  · obtain ⟨free, rfl⟩ := hreset
    exact transact_reset_inv hfree free
  cases hf : S.core.faulted with
  | true =>
    rw [transact_of_faulted hf (not_exists.mp hreset)]
    exact hS
  | false =>
    obtain ⟨hcore, hboot⟩ := hS.resolve_left (by simp [hf])
    cases c with
    | load image base => exact transact_load_inv hS hcore hboot image base
    | step => exact transact_step_inv hf hcore
    | tickTimers =>
      simp only [transact, hf]
      exact .inr ⟨inv_tickTimers hcore, hboot⟩
    | setKeys k =>
      simp only [transact, hf]
      exact .inr ⟨inv_setKeys hcore k, hboot⟩
    | reset free => exact absurd ⟨free, rfl⟩ hreset

theorem runSchedule_inv {calls : List HostCall} {S : Session} (hfree : S.resetParams.resetFree = false) (hS : S.Inv) :
    (runSchedule calls S).Inv := by
  induction calls generalizing S with
  | nil => exact hS
  | cons c calls ih => exact ih ((congrArg _ (transact_resetParams c S)).trans hfree) (transact_inv c hfree hS)

/-! ### The obligations -/

/-- Settles O52: every transaction keeps the invariant, and an infinite schedule is its finite prefixes. -/
theorem everyScheduleKeepsTheInvariant : Obligations.EveryScheduleKeepsTheInvariant := by
  refine ⟨fun _ _ => runSchedule_inv, fun calls S n hfree hS => ?_⟩
  rw [sessionAt_eq_runSchedule]
  exact runSchedule_inv hfree hS

/-- Settles O1, by the state after a reset under each setting of `RESET_FREE` and by what memory reads after the font. -/
theorem resetLeavesTheListedValues : Obligations.ResetLeavesTheListedValues := by
  refine ⟨fun p rp free => ⟨rfl, rfl, rfl, rfl, read_font _ rp.font, fun h => ?_, fun h => ?_⟩, fun free => ?_,
    fun _ _ => ⟨rfl, rfl, rfl⟩⟩
  · rw [resetCore_constrained h]
    exact ⟨reg_reset, rfl, rfl, slot_reset, rfl, rfl,
      fun k hk => (read_above_font [] rp.font hk).trans (unlistedByte_above_font hk), pixel_clearFramebuffer, key_reset, rfl⟩
  · rw [resetCore_unconstrained h]
    exact ⟨rfl, rfl, rfl, rfl, rfl, rfl, fun k hk => read_above_font free.mem rp.font hk, rfl, rfl, rfl⟩
  · rw [resetCore_constrained rfl, writeBytes_defaultFont]
    rfl

/-- Settles O50: the jump goes where pc already is. -/
theorem selfJumpIsQuiescent : Obligations.SelfJumpIsQuiescent := by
  intro s addr hs _ hpc hfetch
  have htarget : zextAddr addr = s.pc := hpc.symm
  calc step s = exec (.jpAddr addr) s := step_eq_exec hs hfetch
    _ = .next (s.setPc (zextAddr addr)) := rfl
    _ = .next s := by rw [htarget]; rfl

/-- Settles O53, by induction on the number of transactions. -/
theorem infiniteScheduleIsItsPrefixes : Obligations.InfiniteScheduleIsItsPrefixes := by
  intro calls S n
  have hprefix := sessionAt_eq_runSchedule calls S n
  exact ⟨hprefix, congrArg (fun T => (transact (calls n) T).1) hprefix⟩

end Sys2Proof.Machine
end
